-- ==== Sys2Proof/Word.lean ====
section
/-! DEFINITION. The word types of the engine: 32-bit registers (R7 `REG_WIDTH`) and 8-bit buffer elements (R7 `ELEM_WIDTH`). -/

namespace Sys2Proof

/-- A register as the host accesses it, a command word, a generator state: 32 bits (R7, R26). -/
abbrev Word := BitVec 32

/-- One buffer element: an unsigned 8-bit value (R7, R42). -/
abbrev Byte := BitVec 8

end Sys2Proof
end

