-- ==== Sys2Proof/Syntax.lean ====
section
/-! DEFINITION. The engine's commands: one constructor per row of spec/opcode_table.json. A command word has no operand field
and no immediate (R64): every operand is implicit, so no constructor takes an argument. -/

namespace Sys2Proof

/-- The eight commands (R64). -/
inductive Instr where
  /-- `XOR.ENC`, `xor encrypt` (R97). -/
  | xorEnc
  /-- `XOR.DEC`, `xor decrypt` (R98). -/
  | xorDec
  /-- `SWAP.ENC`, `swap encrypt` (R105). -/
  | swapEnc
  /-- `SWAP.DEC`, `swap decrypt` (R106). -/
  | swapDec
  /-- `MATH.ENC`, `math encrypt` (R117). -/
  | mathEnc
  /-- `MATH.DEC`, `math decrypt` (R118). -/
  | mathDec
  /-- `CHANNEL.ENC`, `channel encrypt` (R129). -/
  | channelEnc
  /-- `CHANNEL.DEC`, `channel decrypt` (R130). -/
  | channelDec
  deriving DecidableEq, Repr

end Sys2Proof
end

