-- ==== Sys2Proof/Decode.lean ====
section
/-! DEFINITION. Command words: the decoder `Decode(w)` of R65, total on every word and rejecting by name, the encoder from
the same table (R62 to R64), and the assembler of the source's tokens (R67, R68). -/

namespace Sys2Proof

/-! ## Fields of a command word (R62) -/

/-- `METHOD = w[2:0]`. -/
def methodField (w : Word) : BitVec 3 := w.extractLsb' 0 3

/-- `DIR = w[3]`. -/
def dirField (w : Word) : BitVec 1 := w.extractLsb' 3 1

/-- The reserved field `w[31:4]`. -/
def reservedField (w : Word) : BitVec 28 := w.extractLsb' 4 28

/-! ## Decoding -/

/-- The two kinds of illegal word that R66 names. -/
inductive Illegal where
  /-- A bit of `w[31:4]` is set. -/
  | reservedBitSet
  /-- `METHOD` is 4 to 7: the source's unrecognised method. -/
  | unrecognisedMethod
  deriving DecidableEq, Repr

/-- The result of `Decode(w)`: a command, or `Illegal` with the reason (R65). -/
inductive Decoded where
  | command (i : Instr)
  | illegal (why : Illegal)
  deriving DecidableEq, Repr

/-- The command of a method code and a direction; none for the codes 4 to 7 (R63, R64). -/
def commandOf (method : BitVec 3) (dir : BitVec 1) : Option Instr :=
  match method.toNat with
  | 0 => some (if dir = 0 then .xorEnc else .xorDec)
  | 1 => some (if dir = 0 then .swapEnc else .swapDec)
  | 2 => some (if dir = 0 then .mathEnc else .mathDec)
  | 3 => some (if dir = 0 then .channelEnc else .channelDec)
  | _ => none

/-- `Decode(w)` (R65): the reserved field first, then the method code. -/
def decode (w : Word) : Decoded :=
  if reservedField w ≠ 0 then .illegal .reservedBitSet
  else match commandOf (methodField w) (dirField w) with
    | some i => .command i
    | none => .illegal .unrecognisedMethod

/-! ## Encoding -/

/-- A command word from its direction and method fields, reserved bits 0 (R62). -/
def packCommand (dir : BitVec 1) (method : BitVec 3) : Word := (0#28 ++ dir) ++ method

/-- The `METHOD` code of a command (R63). -/
def methodOf : Instr → BitVec 3
  | .xorEnc | .xorDec => 0
  | .swapEnc | .swapDec => 1
  | .mathEnc | .mathDec => 2
  | .channelEnc | .channelDec => 3

/-- The `DIR` bit of a command: 0 forward (`encrypt`), 1 inverse (`decrypt`) (R62). -/
def dirOf : Instr → BitVec 1
  | .xorEnc | .swapEnc | .mathEnc | .channelEnc => 0
  | .xorDec | .swapDec | .mathDec | .channelDec => 1

/-- The word of a command (R62 to R64). -/
def encode (i : Instr) : Word := packCommand (dirOf i) (methodOf i)

/-! ## Words as spec/opcode_table.json numbers them -/

/-- The command word of `nbits` table bits: the bits at `nbits` and above are 0. A command is one 32-bit word written whole to
CMD (R61), so no byte order enters (R47). -/
def tableWord (nbits w : Nat) : Nat := w % 2 ^ nbits

/-- The command the decoder reads from an opcode-table word; none where it refuses, or where the bits do not fit the one
32-bit word a command is (R61; log 15). -/
def decodeTableWord (nbits w : Nat) : Option Instr :=
  if tableWord nbits w < 2 ^ 32 then
    match decode (BitVec.ofNat 32 (tableWord nbits w)) with
    | .command i => some i
    | .illegal _ => none
  else none

/-! ## Assembler (R67, R68) -/

/-- The method code of a boundary string; every other name assembles to `METHOD = 7` (R63, R68). -/
def assembleMethod (name : String) : BitVec 3 :=
  if name = "xor" then 0 else if name = "swap" then 1 else if name = "math" then 2
  else if name = "channel" then 3 else 7

/-- The direction bit of a direction token; the assembler rejects every other token (R67, R68). -/
def assembleDir (name : String) : Option (BitVec 1) :=
  if name = "encrypt" then some 0 else if name = "decrypt" then some 1 else none

/-- `<method> <direction>` to its command word `(dirbit << 3) | methodcode`; none where the assembler rejects the line
(R67, R68). -/
def assemble (method dir : String) : Option Word :=
  (assembleDir dir).map fun d => packCommand d (assembleMethod method)

end Sys2Proof
end

