-- ==== Sys2Proof/Config.lean ====
section
/-! DEFINITION. What this implementation fixes (`BUF_CAPACITY`), and the free values: constants without a body for what the
spec leaves unspecified after reset (R35, R171) and between commands (R31). The remaining parameters of R7 (the generator's constants, the modulus, the
position factor, the channel count) stand beside the operations that use them, in Machine/Prng.lean and Machine/Operands.lean. -/

namespace Sys2Proof

/-- `BUF_CAPACITY = 3 × 65535 × 65535`: elements in each of SRC and DST (R7, R45, decision D27; log 9). -/
def Config.bufCapacity : Nat := 12884508675

/-- `RESET_KEY`: what KEY holds after the n-th `Reset` action; unspecified (R35; log 3). -/
opaque Config.freeKey : Nat → Word

/-- `RESET_ROWS` after the n-th `Reset` action; unspecified (R35; log 3). -/
opaque Config.freeRows : Nat → BitVec 16

/-- `RESET_COLS` after the n-th `Reset` action; unspecified (R35; log 3). -/
opaque Config.freeCols : Nat → BitVec 16

/-- `RESET_CHANS` after the n-th `Reset` action; unspecified (R35; log 3). -/
opaque Config.freeChans : Nat → BitVec 8

/-- `RESET_S` after the n-th `Reset` action; unspecified, never observable (R30, R35; log 3). -/
opaque Config.freeS : Nat → Word

/-- What `P` holds from the n-th moment on at which its content becomes unspecified: the end of a `swap` command or a `Reset`
action; never observable (R31, R35, U9; logs 3 and 17). -/
opaque Config.freeP : Nat → List Word

/-- What the SRC element at an address holds after the n-th `Reset` action while nothing has written it (R35; log 2). -/
opaque Config.freeSrc : Nat → Nat → Byte

/-- What the DST element at an address holds after the n-th `Reset` action while nothing has written it (R35; log 2). -/
opaque Config.freeDst : Nat → Nat → Byte

end Sys2Proof
end

