-- ==== Sys2Proof/Machine/HostAction.lean ====
section
/-! DEFINITION. The host's actions on the engine and what its reads return (R142). -/

namespace Sys2Proof.Machine

/-- The host actions of R142. Registers are named by their number (R26), elements by their address (R43). -/
inductive HostAction where
  /-- Write a 32-bit word to the register of this number; a write to number 4 starts a command. -/
  | writeReg (n : Nat) (w : Word)
  /-- Read the register of this number. -/
  | readReg (n : Nat)
  /-- Write one element of SRC. -/
  | writeSrc (a : Nat) (v : Byte)
  /-- Read one element of SRC. -/
  | readSrc (a : Nat)
  /-- Write one element of DST. -/
  | writeDst (a : Nat) (v : Byte)
  /-- Read one element of DST. -/
  | readDst (a : Nat)
  /-- The `Reset` action (R171). -/
  | reset
  deriving DecidableEq, Repr

/-- What a read of R142 returns to the host. -/
inductive Reply where
  /-- `ReadReg` returns a 32-bit word. -/
  | word (w : Word)
  /-- `ReadSrc` and `ReadDst` return one element. -/
  | element (v : Byte)
  deriving DecidableEq, Repr

end Sys2Proof.Machine
end

