-- ==== Sys2Proof/Machine/State.lean ====
section
/-! DEFINITION. The machine's state (R13), the reasons a step can stop, and the state after reset (R35). -/

namespace Sys2Proof.Machine

/-! ## Reasons to stop

The two faults the SPEC gives the engine (`UnknownMethod`, `BadChannelCount`, R151 and R152) are no stops: a faulted command
ends in a next state with its cause in STATUS (R154). -/

/-- Why a step stops with a fault. -/
inductive Fault where
  /-- Raised by the host actions on SRC and DST whose address is at or above `BUF_CAPACITY`: the address space has no such
  element (R41, R142; log 8). Safe: the spec gives the access no effect. -/
  | noSuchElement
  deriving DecidableEq, Repr

/-- Why a step has no meaning. -/
inductive Refusal where
  /-- Raised by an arm of `exec` whose instruction has no meaning yet; no arm of this model does. Safe. -/
  | notModelled (mnemonic : String)
  /-- Raised by a command whose `3 * N` elements do not fit the buffers, which R45 has a model refuse. Safe; with this
  hardware's capacity no command reaches it (log 9). -/
  | beyondCapacity
  deriving DecidableEq, Repr

/-! ## Outcomes of a command -/

/-- The cause of a faulted command; codes 3 to 15 do not exist (R22, U6). -/
inductive Cause where
  /-- `UnknownMethod` (R151). -/
  | unknownMethod
  /-- `BadChannelCount` (R152). -/
  | badChannelCount
  deriving DecidableEq, Repr

/-- The two outcomes of a command, kept distinct (R157). -/
inductive CommandOutcome where
  | completed
  | faulted (c : Cause)
  deriving DecidableEq, Repr

/-! ## Memory -/

/-- One buffer memory: the elements something has written since the last reset, addresses strictly rising (`Memory.wf`). An
address that is not listed has no value of its own here; reading it yields a free value (R35; log 2). -/
abbrev Memory := List Host.Cell

/-- The canonical form: addresses strictly rising. An unlisted address holds no value, so no listed byte can equal it. -/
abbrev Memory.wf (m : Memory) : Prop := List.Pairwise (fun x y => x.1 < y.1) m

/-- Every listed address exists (R41). -/
abbrev Memory.inRange (m : Memory) : Prop := ∀ c ∈ m, c.1 < Config.bufCapacity

/-! ## The state -/

/-- The engine's state: the product R13 gives, and the model's own fields beside it. -/
structure State where
  /-- `KEY`, register 0: two's complement signed (R14). -/
  key : Word
  /-- `ROWS[15:0]`, register 1; the reserved bits hold nothing (R15, R27). -/
  rows : BitVec 16
  /-- `COLS[15:0]`, register 2 (R16, R27). -/
  cols : BitVec 16
  /-- `CHANS[7:0]`, register 3 (R17, R27). -/
  chans : BitVec 8
  /-- `CMD`, register 4: the last word written, legal or not (R21). -/
  cmd : Word
  /-- `STATUS`, register 5 (R22). -/
  status : Word
  /-- `SRC` (R28). -/
  src : Memory
  /-- `DST` (R29). -/
  dst : Memory
  /-- The hidden generator state `S` (R30). -/
  S : Word
  /-- The hidden permutation table `P`; between commands its content is a free value (R31; log 17). -/
  P : List Word
  /-- The model's own: the host actions still to come, the next one first (R142; log 4). -/
  pending : List HostAction
  /-- The model's own: what the host's reads returned, newest first (R142; log 5). -/
  replies : List Reply
  /-- The model's own: the outcomes of the run's commands, newest first (R157; log 6). -/
  outcomes : List CommandOutcome
  /-- The model's own: how many `Reset` actions there have been, which selects the free values (R171; log 3). -/
  resets : Nat
  /-- The model's own: how often the content of `P` has become unspecified, which selects its free value (R31; log 17). -/
  tables : Nat
  deriving DecidableEq, Repr

/-- The machine right after reset: `STATUS = 0` and `CMD = 0` as R35 says, nothing written in SRC and DST; KEY, ROWS, COLS,
CHANS, S and P at the values log 1 names, since R35 leaves them unspecified (DESIGN CHOICE, unsafe). -/
def State.reset : State where
  key := 0
  rows := 0
  cols := 0
  chans := 0
  cmd := 0
  status := 0
  src := []
  dst := []
  S := 0
  P := []
  pending := []
  replies := []
  outcomes := []
  resets := 0
  tables := 0

end Sys2Proof.Machine
end

