-- ==== Sys2Proof/Machine/Flags.lean ====
section
/-! DEFINITION. The STATUS register, the engine's only flag state (R22 to R25): its fields, the word they make, and the codes
of the two faults. No transform sets a flag from its data (R22). -/

namespace Sys2Proof.Machine

/-- The fault codes of `STATUS.CAUSE` (R22, R151, R152). -/
def causeCode : Cause → BitVec 4
  | .unknownMethod => 1
  | .badChannelCount => 2

/-- `STATUS.BUSY`, bit 0. -/
def statusBusy (st : Word) : BitVec 1 := st.extractLsb' 0 1

/-- `STATUS.DONE`, bit 1. -/
def statusDone (st : Word) : BitVec 1 := st.extractLsb' 1 1

/-- `STATUS.ERR`, bit 2. -/
def statusErr (st : Word) : BitVec 1 := st.extractLsb' 2 1

/-- `STATUS.CAUSE`, bits 11:8. -/
def statusCause (st : Word) : BitVec 4 := st.extractLsb' 8 4

/-- The STATUS word of the four fields; the reserved bits 7:3 and 31:12 are 0 (R22; log 12). -/
def packStatus (busy done err : BitVec 1) (cause : BitVec 4) : Word :=
  ((((0#20 ++ cause) ++ 0#5) ++ err) ++ done) ++ busy

/-- STATUS while a command starts: `BUSY <- 1; DONE <- 0; ERR <- 0; CAUSE <- 0` (R136). -/
def statusStart : Word := packStatus 1 0 0 0

/-- STATUS when a command completes: `BUSY <- 0; DONE <- 1`, ERR and CAUSE as they stand (R136). -/
def statusComplete (st : Word) : Word := packStatus 0 1 (statusErr st) (statusCause st)

/-- STATUS when a command faults: `BUSY <- 0; DONE <- 1; ERR <- 1; CAUSE <- code` (R154). -/
def statusRaise (c : Cause) : Word := packStatus 0 1 1 (causeCode c)

/-- The bits of STATUS that belong to a field; the others are reserved (R22). -/
def statusFields : Word := packStatus 1 1 1 15

/-- STATUS as the host reads it: the reserved bits read as 0 (R22, R27). -/
def statusRead (st : Word) : Word := st &&& statusFields

end Sys2Proof.Machine
end

