-- ==== Sys2Proof/Machine/Operands.lean ====
section
/-! DEFINITION. The implicit operands of a command: the pixel count, the element addresses (R18, R43), and the offsets of the
modular adder (R116). -/

namespace Sys2Proof.Machine

/-- `CHANNELS`: channels per pixel, 0 red, 1 green, 2 blue (R7). -/
def channels : Nat := 3

/-- `MODULUS`: the modulus of all element arithmetic (R7). -/
def modulus : Int := 256

/-- `POS_FACTOR`: the multiplier of (i + j) in the modular transform (R7). -/
def posFactor : Int := 13

/-- `N = ROWS[15:0] * COLS[15:0]`, the number of pixels (R18). -/
def pixels (s : State) : Nat := s.rows.toNat * s.cols.toNat

/-- `3 * N`, the number of elements of the buffer (R18). -/
def elements (s : State) : Nat := channels * pixels s

/-- `Pix(r, c) = r * COLS + c`, the pixel index (R43). -/
def pix (cols r c : Nat) : Nat := r * cols + c

/-- The address of channel `ch` of pixel `p` (R43, R46). -/
def pixelAddr (p ch : Nat) : Nat := channels * p + ch

/-- `Addr(r, c, ch) = 3 * Pix(r, c) + ch` (R43). -/
def addr (cols r c ch : Nat) : Nat := pixelAddr (pix cols r c) ch

/-- The row of the pixel with index `p` (R43). -/
def rowOf (cols p : Nat) : Nat := p / cols

/-- The column of the pixel with index `p` (R43). -/
def colOf (cols p : Nat) : Nat := p % cols

/-- The byte offset of register `n` from the platform's base address (R26). -/
def regOffset (n : Nat) : Nat := 4 * n

/-- The key offset `k8 = sint_32(KEY) mod 256`, by true mathematical modulo (R9, R116). -/
def keyOffset (key : Word) : Int := key.toInt % modulus

/-- The position offset `(r + c) * 13` (R116). -/
def posOffset (r c : Nat) : Int := (r + c) * posFactor

/-- An element widened to an integer: the non-negative number 0 to 255 (R42). -/
def widen (v : Byte) : Int := v.toNat

/-- An integer already reduced into 0 to 255, narrowed to an element (R42). -/
def narrow (x : Int) : Byte := BitVec.ofInt 8 x

end Sys2Proof.Machine
end

