-- ==== Sys2Proof/Machine/Ops.lean ====
section
/-! DEFINITION. The shared operations: one element of a memory, the engine's and the host's accesses, the register file as the
host sees it, bounded loops, and the start, the end and the fault of a command. -/

namespace Sys2Proof.Machine

/-! ## Memory -/

/-- The byte written at an address, or none where nothing has been written since the last reset. -/
def Memory.read : Memory → Nat → Option Byte
  | [], _ => none
  | (b, v) :: m, a => if a = b then some v else Memory.read m a

/-- Store one byte, keeping the addresses strictly rising. -/
def Memory.write : Memory → Nat → Byte → Memory
  | [], a, v => [(a, v)]
  | (b, x) :: m, a, v =>
    if a < b then (a, v) :: (b, x) :: m
    else if a = b then (a, v) :: m
    else (b, x) :: Memory.write m a v

/-- `SrcRead(a)`, the element at `a` of SRC; a free value where nothing has written it (R9, R35, R42; log 2). -/
def srcRead (s : State) (a : Nat) : Byte := (s.src.read a).getD (Config.freeSrc s.resets a)

/-- The element at `a` of DST; a free value where nothing has written it (R35, R42; log 2). -/
def dstRead (s : State) (a : Nat) : Byte := (s.dst.read a).getD (Config.freeDst s.resets a)

/-- `DstWrite(a, v)`: store `v` at `a` of DST (R9, R42). -/
def dstWrite (a : Nat) (v : Byte) (s : State) : State := { s with dst := s.dst.write a v }

/-- The host's write of `v` at `a` of SRC (R142); the engine never writes SRC (R28). -/
def srcWrite (a : Nat) (v : Byte) (s : State) : State := { s with src := s.src.write a v }

/-! ## The hidden table -/

/-- The content of `P` becomes unspecified, any value (R31, U9): a fresh free value (log 17). -/
def releaseTable (s : State) : State := { s with P := Config.freeP (s.tables + 1), tables := s.tables + 1 }

/-! ## Registers as the host accesses them (R26, R27, R142) -/

/-- `ReadReg(n)`: the register, reserved bits as 0; 0 for a number that does not exist. -/
def regRead (n : Nat) (s : State) : Word :=
  match n with
  | 0 => s.key
  | 1 => s.rows.setWidth 32
  | 2 => s.cols.setWidth 32
  | 3 => s.chans.setWidth 32
  | 4 => s.cmd
  | 5 => statusRead s.status
  | _ => 0

/-- The storing part of `WriteReg(n, w)`: reserved bits are dropped; STATUS and the numbers that do not exist ignore the
write. What a write to CMD starts is `execute` (Machine/Actions.lean). -/
def regWrite (n : Nat) (w : Word) (s : State) : State :=
  match n with
  | 0 => { s with key := w }
  | 1 => { s with rows := w.extractLsb' 0 16 }
  | 2 => { s with cols := w.extractLsb' 0 16 }
  | 3 => { s with chans := w.extractLsb' 0 8 }
  | 4 => { s with cmd := w }
  | _ => s

/-- A read's value handed to the host (log 5). -/
def reply (r : Reply) (s : State) : State := { s with replies := r :: s.replies }

/-! ## Loops -/

/-- `for i in 0 .. n - 1`: the body at 0, then at 1, and so on (R9). -/
def loopUp {σ : Type} : Nat → (Nat → σ → σ) → σ → σ
  | 0, _, x => x
  | n + 1, body, x => body n (loopUp n body x)

/-! ## A command's start, end and fault -/

/-- The start of `Execute`: BUSY set, DONE, ERR and CAUSE cleared (R136). -/
def beginCommand (s : State) : State := { s with status := statusStart }

/-- The end of a completed command (R136, R139). -/
def complete (s : State) : State :=
  { s with status := statusComplete s.status, outcomes := .completed :: s.outcomes }

/-- `raise X`: fault entry (R154). STATUS takes the cause; nothing is saved, control goes nowhere, and nothing else changes.
There is no return from a fault (R155): the next command's `beginCommand` clears ERR and CAUSE. -/
def raise (c : Cause) (s : State) : State :=
  { s with status := statusRaise c, outcomes := .faulted c :: s.outcomes }

/-- `Execute` of a legal command word (R136): start, the channel-count check (R140, R152), the transform, end. Where the
buffer does not fit the memories there is no end state (R45; log 9). -/
def runCommand (transform : State → State) (s : State) : Host.Outcome State Fault Refusal :=
  let s0 := beginCommand s
  if s.chans ≠ 3 then .next (raise .badChannelCount s0)
  else if Config.bufCapacity < elements s then .refused .beyondCapacity
  else .next (complete (transform s0))

end Sys2Proof.Machine
end

