-- ==== Sys2Proof/Machine/Channel.lean ====
section
/-! DEFINITION. The channel rotator: `CHANNEL.ENC` and `CHANNEL.DEC` (R128 to R130). Neither reads KEY or the generator. -/

namespace Sys2Proof.Machine

/-- Store a pixel's three elements: red, green, blue (R129, R130). -/
def putPixel (p : Nat) (red green blue : Byte) (s : State) : State :=
  dstWrite (pixelAddr p 2) blue (dstWrite (pixelAddr p 1) green (dstWrite (pixelAddr p 0) red s))

/-- One pixel forward: new red = old blue, new green = old red, new blue = old green (R129). -/
def chanFwdPixel (p : Nat) (s : State) : State :=
  let red := srcRead s (pixelAddr p 0)
  let green := srcRead s (pixelAddr p 1)
  let blue := srcRead s (pixelAddr p 2)
  putPixel p blue red green s

/-- One pixel inverse: new red = old green, new green = old blue, new blue = old red (R130). -/
def chanInvPixel (p : Nat) (s : State) : State :=
  let red := srcRead s (pixelAddr p 0)
  let green := srcRead s (pixelAddr p 1)
  let blue := srcRead s (pixelAddr p 2)
  putPixel p green blue red s

/-- `ChanFwd()` (R129). -/
def chanFwd (s : State) : State := loopUp (pixels s) chanFwdPixel s

/-- `ChanInv()` (R130). -/
def chanInv (s : State) : State := loopUp (pixels s) chanInvPixel s

/-- `CHANNEL.ENC` (R129). -/
def execChannelEnc (s : State) : Host.Outcome State Fault Refusal := runCommand chanFwd s

/-- `CHANNEL.DEC` (R130). -/
def execChannelDec (s : State) : Host.Outcome State Fault Refusal := runCommand chanInv s

end Sys2Proof.Machine
end

