-- ==== Sys2Proof/Machine/Prng.lean ====
section
/-! DEFINITION. The seeded generator `LCG32` (R80 to R88) as functions of the generator state, and the contract that any
`PRNG_ENGINE` meets (R76 to R79, R94). -/

namespace Sys2Proof.Machine

/-- `LCG_A`, the multiplier (R7). -/
def lcgA : Word := 1664525

/-- `LCG_C`, the increment (R7). -/
def lcgC : Word := 1013904223

/-- `Seed(k)`: the state is the key's 32-bit pattern (R80). -/
def seed (k : Word) : Word := k

/-- The state after one `Next()`, which is also the draw (R81). -/
def lcgNext (S : Word) : Word := S * lcgA + lcgC

/-- The byte of a draw: its top eight bits (R84). -/
def byteOfDraw (u : Word) : Byte := u.extractLsb' 24 8

/-- The index below `n` of a draw: `(u * n) >> 32` (R85). -/
def belowOfDraw (u : Word) (n : Nat) : Nat := (u.toNat * n) >>> 32

/-- `DrawByte()`: the byte and the state after the draw (R84). -/
def drawByte (S : Word) : Byte × Word := (byteOfDraw (lcgNext S), lcgNext S)

/-- `DrawBelow(n)`: the index and the state after the draw (R85). -/
def drawBelow (S : Word) (n : Nat) : Nat × Word := (belowOfDraw (lcgNext S) n, lcgNext S)

/-- `n` mask bytes in draw order, and the state after them (R86). -/
def drawBytes : Nat → Word → List Byte × Word
  | 0, S => ([], S)
  | n + 1, S =>
    let d := drawByte S
    let rest := drawBytes n d.2
    (d.1 :: rest.1, rest.2)

/-- `DrawMask(rows, cols)`: entry `a` is the `(a + 1)`-th draw (R86). -/
def drawMask (S : Word) (rows cols : Nat) : List Byte × Word := drawBytes (channels * (rows * cols)) S

/-- Exchange the entries `i` and `j` of a table (R88). -/
def swapEntries (t : List Word) (i j : Nat) : List Word := (t.set i (t.getD j 0)).set j (t.getD i 0)

/-- The identity ordering: entry `i` is `i` (R88). -/
def identityTable (n : Nat) : List Word := (List.range n).map (BitVec.ofNat 32)

/-- The shuffle's steps `i`, `i - 1`, down to 1, one `DrawBelow(i + 1)` each (R88). -/
def shuffleFrom : Nat → List Word × Word → List Word × Word
  | 0, x => x
  | i + 1, (t, S) =>
    let d := drawBelow S (i + 2)
    shuffleFrom i (swapEntries t (i + 1) d.1, d.2)

/-- `DrawPermutation(n)`: the table and the state after the `n - 1` draws (R88). -/
def drawPermutation (S : Word) (n : Nat) : List Word × Word := shuffleFrom (n - 1) (identityTable n, S)

/-- Entry `i` of a table as a pixel index. -/
def entry (t : List Word) (i : Nat) : Nat := (t.getD i 0).toNat

/-- A table holds a permutation of `0 .. n - 1` (R77, R89). -/
def isPermutation (t : List Word) (n : Nat) : Prop := (t.map BitVec.toNat).Perm (List.range n)

/-- The generator state after `n` draws from `S`, draw by draw. -/
def stateAfter (S : Word) : Nat → Word
  | 0 => S
  | n + 1 => lcgNext (stateAfter S n)

/-- What a model may rely on of a `PRNG_ENGINE` (R77, R94): a mask of one byte per element, a table that is a permutation of
the pixel indices, for every pixel count up to 65535 squared (R88). That each is a function of the seed and the request alone (R78) is their being functions. -/
def prngContract (mask : Word → Nat → Nat → List Byte) (table : Word → Nat → List Word) : Prop :=
  (∀ k rows cols, (mask k rows cols).length = channels * (rows * cols)) ∧
  (∀ k n, n ≤ 4294836225 → isPermutation (table k n) n)

end Sys2Proof.Machine
end

