-- ==== Sys2Proof/Machine/MaskXor.lean ====
section
/-! DEFINITION. The bitwise mask combiner: `XOR.ENC` and `XOR.DEC` (R96 to R98). -/

namespace Sys2Proof.Machine

/-- `Combine(v, m) = v xor m` (R96). -/
def combine (v m : Byte) : Byte := v ^^^ m

/-- One element: draw its mask byte, combine, store (R97). -/
def maskXorElement (a : Nat) (s : State) : State :=
  let d := drawByte s.S
  dstWrite a (combine (srcRead s a) d.1) { s with S := d.2 }

/-- `MaskXor()`: seed, then every element in ascending address order, the draw order (R97). -/
def maskXor (s : State) : State := loopUp (elements s) maskXorElement { s with S := seed s.key }

/-- `DST[a] <- SRC[a] xor M[a]` for every element, with a whole mask `M` at hand (R97's second form, R94). -/
def maskWith (mask : List Byte) (s : State) : State :=
  loopUp (elements s) (fun a x => dstWrite a (combine (srcRead x a) (mask.getD a 0)) x) s

/-- `XOR.ENC` (R97). -/
def execXorEnc (s : State) : Host.Outcome State Fault Refusal := runCommand maskXor s

/-- `XOR.DEC`: `Execute` runs the same `MaskXor()` (R98). -/
def execXorDec (s : State) : Host.Outcome State Fault Refusal := runCommand maskXor s

end Sys2Proof.Machine
end

