-- ==== Sys2Proof/Machine/Modular.lean ====
section
/-! DEFINITION. The modular adder: `MATH.ENC` and `MATH.DEC` (R116 to R118). All arithmetic is on integers with the true
modulo of R9, as the rules write it. -/

namespace Sys2Proof.Machine

/-- One element forward: add the key offset, reduce, add the position offset, reduce (R117). -/
def modFwdElement (key : Word) (r c : Nat) (v : Byte) : Byte :=
  let t1 := (widen v + keyOffset key) % modulus
  narrow ((t1 + posOffset r c) % modulus)

/-- One element inverse: subtract the position offset, reduce, subtract the key offset, reduce (R118). -/
def modInvElement (key : Word) (r c : Nat) (v : Byte) : Byte :=
  let t1 := (widen v - posOffset r c) % modulus
  narrow ((t1 - keyOffset key) % modulus)

/-- The loops over rows, columns and channels that both directions share: every element of DST is `f r c` of the SRC element
at its own address (R117, R118). -/
def mapElements (f : Nat → Nat → Byte → Byte) (s : State) : State :=
  loopUp s.rows.toNat (fun r x => loopUp s.cols.toNat (fun c y => loopUp channels (fun ch z =>
    dstWrite (addr s.cols.toNat r c ch) (f r c (srcRead z (addr s.cols.toNat r c ch))) z) y) x) s

/-- `ModFwd()` (R117). -/
def modFwd (s : State) : State := mapElements (modFwdElement s.key) s

/-- `ModInv()` (R118). -/
def modInv (s : State) : State := mapElements (modInvElement s.key) s

/-- `MATH.ENC` (R117). -/
def execMathEnc (s : State) : Host.Outcome State Fault Refusal := runCommand modFwd s

/-- `MATH.DEC` (R118). -/
def execMathDec (s : State) : Host.Outcome State Fault Refusal := runCommand modInv s

end Sys2Proof.Machine
end

