-- ==== Sys2Proof/Machine/Permutation.lean ====
section
/-! DEFINITION. The permutation indexer: `SWAP.ENC` and `SWAP.DEC` (R104 to R106). -/

namespace Sys2Proof.Machine

/-- Seed and build the table: `Seed(KEY); P <- DrawPermutation(N)` (R105, R106). -/
def buildTable (s : State) : State :=
  let d := drawPermutation (seed s.key) (pixels s)
  { s with P := d.1, S := d.2 }

/-- Move the three elements of SRC pixel `p` to DST pixel `q`; channel positions are kept (R104). -/
def movePixel (p q : Nat) (s : State) : State :=
  loopUp channels (fun ch x => dstWrite (pixelAddr q ch) (srcRead x (pixelAddr p ch)) x) s

/-- SRC pixel `i` goes to slot `P[i]` of DST, for every `i` (R105). -/
def scatterPixels (s : State) : State := loopUp (pixels s) (fun i x => movePixel i (entry x.P i) x) s

/-- Slot `i` of DST takes SRC pixel `P[i]`, for every `i`: the mapping reversed (R106). -/
def gatherPixels (s : State) : State := loopUp (pixels s) (fun i x => movePixel (entry x.P i) i x) s

/-- `PermFwd()` (R105); with the command `P` loses its specified content (R31). -/
def permFwd (s : State) : State := releaseTable (scatterPixels (buildTable s))

/-- `PermInv()`, the positional inverse of `PermFwd` (R106); with the command `P` loses its specified content (R31). -/
def permInv (s : State) : State := releaseTable (gatherPixels (buildTable s))

/-- `SWAP.ENC` (R105). -/
def execSwapEnc (s : State) : Host.Outcome State Fault Refusal := runCommand permFwd s

/-- `SWAP.DEC` (R106). -/
def execSwapDec (s : State) : Host.Outcome State Fault Refusal := runCommand permInv s

end Sys2Proof.Machine
end

