-- ==== Sys2Proof/Machine/Dispatch.lean ====
section
/-! DEFINITION. The transform dispatcher MUX: which meaning a decoded command has (R136, R138). -/

namespace Sys2Proof.Machine

def exec (i : Instr) (s : State) : Host.Outcome State Fault Refusal :=
  match i with
  | .xorEnc => Sys2Proof.Machine.execXorEnc s
  | .xorDec => Sys2Proof.Machine.execXorDec s
  | .swapEnc => Sys2Proof.Machine.execSwapEnc s
  | .swapDec => Sys2Proof.Machine.execSwapDec s
  | .mathEnc => Sys2Proof.Machine.execMathEnc s
  | .mathDec => Sys2Proof.Machine.execMathDec s
  | .channelEnc => Sys2Proof.Machine.execChannelEnc s
  | .channelDec => Sys2Proof.Machine.execChannelDec s

end Sys2Proof.Machine
end

