-- ==== Sys2Proof/Machine/Actions.lean ====
section
/-! DEFINITION. What each host action does to the machine (R142), a write to CMD and the `Reset` action among them. -/

namespace Sys2Proof.Machine

/-- `Execute(w)` after `CMD <- w` (R136): an illegal word raises `UnknownMethod` whatever CHANS holds (R140, R151); a legal
one is run by the dispatcher. -/
def execute (w : Word) (s : State) : Host.Outcome State Fault Refusal :=
  match decode w with
  | .illegal _ => .next (raise .unknownMethod (beginCommand s))
  | .command i => exec i s

/-- `WriteReg(n, w)` (R142): store; a write to CMD then starts the command. -/
def writeReg (n : Nat) (w : Word) (s : State) : Host.Outcome State Fault Refusal :=
  if n = 4 then execute w (regWrite 4 w s) else .next (regWrite n w s)

/-- The `Reset` action (R171): STATUS and CMD take 0; every other piece of the engine's state takes a free value. No command
runs. The host's own side (its actions to come, what it has read) is not the engine's and stays (log 3). -/
def resetAction (s : State) : State :=
  let n := s.resets + 1
  releaseTable { s with
    key := Config.freeKey n
    rows := Config.freeRows n
    cols := Config.freeCols n
    chans := Config.freeChans n
    cmd := 0
    status := 0
    src := []
    dst := []
    S := Config.freeS n
    resets := n }

/-- An access to the element at `a`, where the address space has one (R41, R142; log 8). -/
def atElement (a : Nat) (t : State) : Host.Outcome State Fault Refusal :=
  if a < Config.bufCapacity then .next t else .fault .noSuchElement

/-- One host action (R142). Reads return their value and change nothing of the engine. -/
def perform (act : HostAction) (s : State) : Host.Outcome State Fault Refusal :=
  match act with
  | .writeReg n w => writeReg n w s
  | .readReg n => .next (reply (.word (regRead n s)) s)
  | .writeSrc a v => atElement a (srcWrite a v s)
  | .readSrc a => atElement a (reply (.element (srcRead s a)) s)
  | .writeDst a v => atElement a (dstWrite a v s)
  | .readDst a => atElement a (reply (.element (dstRead s a)) s)
  | .reset => .next (resetAction s)

/-- What the machine does next: the first host action to come, taken off the list; with none to come the engine is idle and
keeps its state (R142, R170; log 4). -/
def nextAction (s : State) : Host.Outcome State Fault Refusal :=
  match s.pending with
  | [] => .next s
  | act :: rest => perform act { s with pending := rest }

/-- The state in which the next host action writes the command word of these table bits to CMD (log 4). -/
def fetchWord (s : State) (nbits w : Nat) : State :=
  { s with pending := .writeReg 4 (BitVec.ofNat 32 (tableWord nbits w)) :: s.pending }

end Sys2Proof.Machine
end

