-- ==== Sys2Proof/Machine/Step.lean ====
section
/-! DEFINITION. The machine's step (R142): one host action. -/

namespace Sys2Proof.Machine

/-- One step: the next host action, or an idle step when none is to come (R142, R170). -/
def step (s : State) : Host.Outcome State Fault Refusal := nextAction s

/-- `s` with the command word of these table bits as the next host write to CMD, so that the next step runs it (log 4). -/
def State.withFetchWord (s : State) (nbits w : Nat) : State := fetchWord s nbits w

end Sys2Proof.Machine
end

