-- ==== Sys2Proof/Machine/Script.lean ====
section
/-! DEFINITION. The host-script notation (R69): each line as the host actions it stands for. It is the host's notation, not
engine syntax; the step never reads it (log 16). -/

namespace Sys2Proof.Machine

/-- A line of the host-script notation (R69). -/
inductive ScriptLine where
  | key (k : Int)
  | shape (rows cols chans : Nat)
  | src (vs : List Byte)
  | run (method dir : String)
  | cmd (w : Word)
  | copy
  | status
  | dst
  deriving DecidableEq, Repr

/-- The element writes `SRC[a] <- v0, SRC[a+1] <- v1, ...`. -/
def srcActions : Nat → List Byte → List HostAction
  | _, [] => []
  | a, v :: vs => .writeSrc a v :: srcActions (a + 1) vs

/-- The host's copy loop: read `DST[a]`, write what it returned to `SRC[a]`, for every `a < n`. -/
def copyActions (s : State) (n : Nat) : List HostAction :=
  (List.range n).flatMap fun a => [.readDst a, .writeSrc a (dstRead s a)]

/-- The host actions of a line, for a host that finds the engine in state `s`; none where the line is rejected before it
reaches the engine: a key outside the 32-bit signed range (R141, D2) or an unknown direction (R68). DESIGN CHOICE (log 19): R69
does not say what the host does with a `shape` value of 2^32 or more, which fits no register write; this host writes its low 32
bits, the value modulo 2^32. -/
def scriptActions (s : State) : ScriptLine → Option (List HostAction)
  | .key k => if -2147483648 ≤ k ∧ k ≤ 2147483647 then some [.writeReg 0 (BitVec.ofInt 32 k)] else none
  | .shape rows cols chans =>
    some [.writeReg 1 (BitVec.ofNat 32 rows), .writeReg 2 (BitVec.ofNat 32 cols), .writeReg 3 (BitVec.ofNat 32 chans)]
  | .src vs => some (srcActions 0 vs)
  | .run method dir => (assemble method dir).map fun w => [.writeReg 4 w]
  | .cmd w => some [.writeReg 4 w]
  | .copy => some (copyActions s (elements s))
  | .status => some [.readReg 5]
  | .dst => some ((List.range (elements s)).map .readDst)

end Sys2Proof.Machine
end

