-- ==== Sys2Proof/Safety.lean ====
section
/-! DEFINITION. What counts as a safe state and a safe run: the words the statements use. -/

namespace Sys2Proof.Machine

/-- STATUS as the most recent command left it: 0 before the first one, else the word of the newest outcome (R22, R139). -/
def statusOfOutcome : CommandOutcome → Word
  | .completed => 0x00000002
  | .faulted .unknownMethod => 0x00000106
  | .faulted .badChannelCount => 0x00000206

/-- STATUS is 0 or tells the newest outcome; hence BUSY is 0, the reserved bits are 0 and no code but 1 and 2 stands in CAUSE
(R22, R139, R142 "BUSY = 0"). -/
def State.statusLegal (s : State) : Prop :=
  s.status = 0 ∨ ∃ o rest, s.outcomes = o :: rest ∧ s.status = statusOfOutcome o

/-- The invariant of the machine: both memories in canonical form with only elements that exist, and a legal STATUS. -/
def State.inv (s : State) : Prop :=
  s.src.wf ∧ s.dst.wf ∧ s.src.inRange ∧ s.dst.inRange ∧ s.statusLegal

/-- Everything a command leaves alone when it ends (R139): the operand registers, CMD, SRC, the host's own side, and the reset
counter. -/
def State.sameOperands (s t : State) : Prop :=
  t.key = s.key ∧ t.rows = s.rows ∧ t.cols = s.cols ∧ t.chans = s.chans ∧ t.cmd = s.cmd ∧ t.src = s.src ∧
  t.pending = s.pending ∧ t.replies = s.replies ∧ t.resets = s.resets

/-- DST outside the buffer keeps its value (R44, R139). -/
def State.dstKeptFrom (s t : State) (n : Nat) : Prop := ∀ a, n ≤ a → dstRead t a = dstRead s a

/-- A command completed: STATUS tells DONE alone, the outcome is recorded (the model's, log 6), and nothing but `DST[0 .. 3N-1]`,
`S`, `P` and the model's counter `tables` has changed (R139). -/
def State.completedFrom (s t : State) : Prop :=
  t.status = 0x00000002 ∧ t.outcomes = .completed :: s.outcomes ∧ s.sameOperands t ∧ s.dstKeptFrom t (elements s)

/-- The state a faulted command ends in: STATUS tells the cause, the outcome is recorded (the model's, log 6), and
everything else, DST, `S` and `P` included, is as it was (R139, R154). -/
def State.afterFault (s : State) (c : Cause) : State :=
  { s with status := statusOfOutcome (.faulted c), outcomes := .faulted c :: s.outcomes }

/-- The host's hand-over from one command's result to the next command's source (R143): SRC holds the first `n` elements of
the result. -/
def State.sourceIsResult (t u : State) (n : Nat) : Prop := ∀ a, a < n → srcRead u a = dstRead t a

/-- The state with other hidden contents: `S` and `P`, which no host action reads (R30, R31). -/
def State.withHidden (s : State) (S : Word) (P : List Word) : State := { s with S := S, P := P }

end Sys2Proof.Machine
end

