-- ==== Sys2Proof/WellFormed.lean ====
section
/-! DEFINITION. What makes a term well-formed. A command has no operand field (R64), so there is nothing in a command to
check; a host action on a buffer must name an element that exists (R41, R142). -/

namespace Sys2Proof

/-- Every command is well-formed: it has no operand that could be out of range (R64). -/
def Instr.wellFormed : Instr → Bool
  | .xorEnc | .xorDec | .swapEnc | .swapDec | .mathEnc | .mathDec | .channelEnc | .channelDec => true

/-- A host action is well-formed when the element it names exists, `a < BUF_CAPACITY` (R41, R142); every register number may
be written and read (R26). -/
def Machine.HostAction.wellFormed : Machine.HostAction → Bool
  | .writeReg _ _ | .readReg _ | .reset => true
  | .writeSrc a _ | .readSrc a | .writeDst a _ | .readDst a => decide (a < Config.bufCapacity)

end Sys2Proof
end

