-- ==== Sys2Proof/Certificates/Slice0/Obligations.lean ====
section
/-! DEFINITION. The statements for the provers, in the order of the spec's files: encoding, generator, the four transforms,
dispatcher and faults, host actions, reset, whole-machine rules. Where a clause rests on a value or a behaviour that the model
chose, the docstring names the log entry. -/

open Sys2Proof Sys2Proof.Machine

/-! ## Command words -/

/-- R65: a word with a bit of `w[31:4]` set or with `w[2:0] >= 4` is illegal; each of the eight other words is the command of
its method and direction. -/
def Obligations.DecodeFollowsTheFields : Prop :=
  (∀ w : Word, (w.toNat / 16 ≠ 0 ∨ 4 ≤ w.toNat % 8) → ∃ why, decode w = .illegal why) ∧
  (∀ w : Word, w.toNat / 16 = 0 → w.toNat % 8 < 4 →
    w ∈ [0x0, 0x1, 0x2, 0x3, 0x8, 0x9, 0xA, 0xB] ∧ ∃ i, decode w = .command i) ∧
  decode 0x0 = .command .xorEnc ∧ decode 0x1 = .command .swapEnc ∧
  decode 0x2 = .command .mathEnc ∧ decode 0x3 = .command .channelEnc ∧
  decode 0x8 = .command .xorDec ∧ decode 0x9 = .command .swapDec ∧
  decode 0xA = .command .mathDec ∧ decode 0xB = .command .channelDec

/-- Decoder and encoder agree in both directions: a word decodes to a command exactly when it is that command's one word. -/
def Obligations.DecodeAndEncodeAgree : Prop :=
  ∀ (w : Word) (i : Instr), i.wellFormed = true → (decode w = .command i ↔ w = encode i)

/-- One word of each family, read off the field table of R62 and R63. -/
def Obligations.SampleWordsDecode : Prop :=
  decode 0b00000000000000000000000000001000 = .command .xorDec ∧
  decode 0b00000000000000000000000000001001 = .command .swapDec ∧
  decode 0b00000000000000000000000000000010 = .command .mathEnc ∧
  decode 0b00000000000000000000000000001011 = .command .channelDec

/-- R67, R68: the word of each method and direction token; every other method name assembles to `METHOD = 7`, which the
engine answers with `UnknownMethod`; every other direction token is rejected. The recorded outcome is the model's (log 6). -/
def Obligations.AssemblerWords : Prop :=
  (∀ name code, (name, code) ∈ [("xor", (0 : Nat)), ("swap", 1), ("math", 2), ("channel", 3)] →
    assemble name "encrypt" = some (BitVec.ofNat 32 code) ∧
    assemble name "decrypt" = some (BitVec.ofNat 32 (1 <<< 3 ||| code))) ∧
  (∀ name, name ∉ ["xor", "swap", "math", "channel"] →
    assemble name "encrypt" = some 0x00000007 ∧ assemble name "decrypt" = some 0x0000000F) ∧
  (∀ s : State, execute 0x00000007 s = .next (s.afterFault .unknownMethod) ∧
    execute 0x0000000F s = .next (s.afterFault .unknownMethod)) ∧
  (∀ name dir, dir ∉ ["encrypt", "decrypt"] → assemble name dir = none)

/-! ## Addresses -/

/-- R43: the address of an element, which lies below `3 * N`; and the row and the column of a pixel index, which give the index
back. -/
def Obligations.ElementAddresses : Prop :=
  (∀ (s : State) (r c ch : Nat), r < s.rows.toNat → c < s.cols.toNat → ch < 3 →
    pix s.cols.toNat r c = r * s.cols.toNat + c ∧ pix s.cols.toNat r c < pixels s ∧
    addr s.cols.toNat r c ch = 3 * pix s.cols.toNat r c + ch ∧ addr s.cols.toNat r c ch < 3 * pixels s ∧
    rowOf s.cols.toNat (pix s.cols.toNat r c) = r ∧ colOf s.cols.toNat (pix s.cols.toNat r c) = c) ∧
  (∀ (s : State) (p : Nat), p < pixels s →
    rowOf s.cols.toNat p = p / s.cols.toNat ∧ colOf s.cols.toNat p = p % s.cols.toNat ∧
    rowOf s.cols.toNat p < s.rows.toNat ∧ colOf s.cols.toNat p < s.cols.toNat ∧
    pix s.cols.toNat (rowOf s.cols.toNat p) (colOf s.cols.toNat p) = p)

/-! ## The generator -/

/-- R80: every 32-bit pattern is a legal seed and is taken as it stands, the pattern of the key's signed value. -/
def Obligations.SeedIsTheKeyPattern : Prop :=
  ∀ k : Word, seed k = k ∧ seed (BitVec.ofInt 32 k.toInt) = k

/-- R81: one draw is the recurrence on unbounded integers, reduced; with the rule's two corner cases and its six example
draws. -/
def Obligations.NextIsTheRecurrence : Prop :=
  (∀ S : Word, (lcgNext S).toNat = (S.toNat * 1664525 + 1013904223) % 4294967296) ∧
  lcgNext 0x00000000 = 0x3C6EF35F ∧ lcgNext 0xFFFFFFFF = 0x3C558D52 ∧
  (List.range 6).map (fun n => stateAfter (seed 5) (n + 1)) =
    [0x3CEDF1A0, 0xBB69F87F, 0x3E3A2BD2, 0xDA5AD909, 0xB7668ED4, 0x5C40AC23]

/-- R82: the generator state after `n` draws in closed form. -/
def Obligations.GeneratorClosedForm : Prop :=
  ∀ (k : Word) (n : Nat), (stateAfter (seed k) n).toNat =
    (1664525 ^ n * k.toNat + 1013904223 * ∑ j ∈ Finset.range n, 1664525 ^ j) % 4294967296

/-- R83's first sentence: the generator's step is a bijection on the states. -/
def Obligations.GeneratorStepIsBijective : Prop := Function.Bijective lcgNext

/-- R84: `DrawByte` makes one draw and takes its top byte. -/
def Obligations.DrawByteIsTheTopByte : Prop :=
  (∀ S : Word, (drawByte S).1.toNat = (lcgNext S).toNat / 16777216 ∧ (drawByte S).2 = lcgNext S) ∧
  [0, 1, 2, 3, 4, 5, 0xFFFFFFFF].map (fun k : Word => (drawByte (seed k)).1) = List.replicate 7 0x3C ∧
  (drawBytes 4 (seed 0)).1 = [0x3C, 0x47, 0xD1, 0xAA]

/-- R85: `DrawBelow(n)` makes one draw and scales it into `0 .. n - 1`; with the rule's corner cases and its example. -/
def Obligations.DrawBelowIsInRange : Prop :=
  (∀ (S : Word) (n : Nat), 1 ≤ n → n ≤ 4294967295 →
    (drawBelow S n).1 = (lcgNext S).toNat * n / 4294967296 ∧ (drawBelow S n).1 ≤ n - 1 ∧ (drawBelow S n).2 = lcgNext S) ∧
  (∀ S : Word, (drawBelow S 1).1 = 0) ∧
  belowOfDraw 0xFFFFFFFF 2 = 1 ∧ belowOfDraw 0xFFFFFFFF 4294967295 = 4294967294 ∧ belowOfDraw 0x7FFFFFFF 2 = 0 ∧
  belowOfDraw 0x80000000 2 = 1 ∧ (drawBelow (seed 5) 4).1 = 0

/-- R86: the mask has one byte per element, entry `a` is the byte of draw `a + 1`, and exactly that many draws are made. -/
def Obligations.MaskFollowsTheDrawOrder : Prop :=
  (∀ (S : Word) (rows cols : Nat),
    (drawMask S rows cols).1.length = 3 * rows * cols ∧
    (∀ a, a < 3 * rows * cols → (drawMask S rows cols).1[a]? = some (byteOfDraw (stateAfter S (a + 1)))) ∧
    (drawMask S rows cols).2 = stateAfter S (3 * rows * cols)) ∧
  drawMask (seed 0) 2 2 =
    ([0x3C, 0x47, 0xD1, 0xAA, 0x62, 0x9F, 0x57, 0xA3, 0x81, 0x94, 0xCB, 0xBC], 0xBCD1195C)

/-- R88: the shuffle starts from the identity; its `k`-th draw is `DrawBelow(n - k + 1)` and serves step `i = n - k`, for
`k = 1 .. n - 1` (here `k = m + 1`), by exchanging two entries; `n` of 0 or 1 draws nothing. -/
def Obligations.ShuffleFollowsTheDrawOrder : Prop :=
  (∀ n i : Nat, n ≤ 4294836225 → i < n → (identityTable n).length = n ∧ entry (identityTable n) i = i) ∧
  (∀ (t : List Word) (i j k : Nat), i < t.length → j < t.length →
    (swapEntries t i j)[k]? = if k = j then t[i]? else if k = i then t[j]? else t[k]?) ∧
  (∀ (S : Word) (n : Nat), drawPermutation S n =
    ((List.range (n - 1)).foldl
      (fun t m => swapEntries t (n - (m + 1)) (belowOfDraw (stateAfter S (m + 1)) (n - (m + 1) + 1))) (identityTable n),
      stateAfter S (n - 1))) ∧
  (∀ S : Word, drawPermutation S 0 = ([], S) ∧ drawPermutation S 1 = ([0], S)) ∧
  drawPermutation (seed 5) 4 = ([1, 3, 2, 0], 0x3E3A2BD2)

/-- R89: the table is a permutation of the pixel indices. -/
def Obligations.TableIsAPermutation : Prop :=
  ∀ (S : Word) (n : Nat), n ≤ 4294836225 → isPermutation (drawPermutation S n).1 n

/-! ## The mask combiner -/

/-- R96 and R99: the combiner works bit by bit, and the laws of exclusive-or that follow. -/
def Obligations.CombineIsBitwiseXor : Prop :=
  ∀ v m : Byte,
    (∀ b, b < 8 → (combine v m).getLsbD b = (v.getLsbD b ^^ m.getLsbD b)) ∧
    combine (combine v m) m = v ∧ combine v 0 = v ∧ combine v v = 0 ∧ combine v m = combine m v

/-- R97, R98: both `xor` commands complete with `DST[a] = SRC[a] xor` (the byte of draw `a + 1` from KEY), leave `S` after
`3 * N` draws and everything else but STATUS alone; with a channel count other than 3 they fault and do nothing. The recorded
outcome is the model's (log 6), and that `P` and the counter `tables` stay is
log 17. -/
def Obligations.XorCommandsCombineTheMask : Prop :=
  ∀ (s : State) (i : Instr), i = .xorEnc ∨ i = .xorDec →
    (s.chans = 3 → ∃ t, exec i s = .next t ∧
      (∀ a, a < 3 * pixels s → dstRead t a = srcRead s a ^^^ byteOfDraw (stateAfter s.key (a + 1))) ∧
      t.S = stateAfter s.key (3 * pixels s) ∧ t.P = s.P ∧ t.tables = s.tables ∧ s.completedFrom t) ∧
    (s.chans ≠ 3 → exec i s = .next (s.afterFault .badChannelCount))

/-- R32, R97: combining each byte as it is drawn leaves the same DST as drawing the whole mask first. -/
def Obligations.StreamingEqualsWholeMask : Prop :=
  ∀ (s : State) (a : Nat),
    dstRead (maskXor s) a = dstRead (maskWith (drawMask (seed s.key) s.rows.toNat s.cols.toNat).1 s) a

/-! ## The permutation indexer -/

/-- R105: `SWAP.ENC` completes with SRC pixel `i` in DST slot `P[i]`, `P` the table drawn from KEY. What the hidden `P` holds
after the command is a free value (R31); its form, with the counter `tables`, is the model's (log 17), and so is the recorded
outcome (log 6). -/
def Obligations.SwapEncryptScattersPixels : Prop :=
  ∀ s : State,
    (s.chans = 3 → ∃ t, exec .swapEnc s = .next t ∧
      t.S = stateAfter s.key (pixels s - 1) ∧ t.P = Config.freeP t.tables ∧ t.tables = s.tables + 1 ∧
      (∀ i ch, i < pixels s → ch < 3 →
        dstRead t (3 * entry (drawPermutation s.key (pixels s)).1 i + ch) = srcRead s (3 * i + ch)) ∧ s.completedFrom t) ∧
    (s.chans ≠ 3 → exec .swapEnc s = .next (s.afterFault .badChannelCount))

/-- R106: `SWAP.DEC` completes with SRC pixel `P[i]` in DST slot `i`, from the same table. What the hidden `P` holds after the
command is a free value (R31); its form, with the counter `tables`, is the model's (log 17), and so is the recorded outcome
(log 6). -/
def Obligations.SwapDecryptGathersPixels : Prop :=
  ∀ s : State,
    (s.chans = 3 → ∃ t, exec .swapDec s = .next t ∧
      t.S = stateAfter s.key (pixels s - 1) ∧ t.P = Config.freeP t.tables ∧ t.tables = s.tables + 1 ∧
      (∀ i ch, i < pixels s → ch < 3 →
        dstRead t (3 * i + ch) = srcRead s (3 * entry (drawPermutation s.key (pixels s)).1 i + ch)) ∧ s.completedFrom t) ∧
    (s.chans ≠ 3 → exec .swapDec s = .next (s.afterFault .badChannelCount))

/-- R107: with `Q` the positional inverse of the table both commands draw from KEY, `SWAP.ENC` fills slot `d` from pixel
`Q[d]`, and `SWAP.DEC` puts pixel `d` into slot `Q[d]`. -/
def Obligations.SwapCommandsUseThePositionalInverse : Prop :=
  ∀ s : State, s.chans = 3 → ∃ (Q : Nat → Nat) (t u : State),
    exec .swapEnc s = .next t ∧ exec .swapDec s = .next u ∧
    (∀ i, i < pixels s → Q (entry (drawPermutation s.key (pixels s)).1 i) = i) ∧
    (∀ d, d < pixels s → Q d < pixels s ∧ entry (drawPermutation s.key (pixels s)).1 (Q d) = d) ∧
    (∀ d d', d < pixels s → d' < pixels s → Q d = Q d' → d = d') ∧
    (∀ d ch, d < pixels s → ch < 3 → dstRead t (3 * d + ch) = srcRead s (3 * Q d + ch)) ∧
    (∀ d ch, d < pixels s → ch < 3 → dstRead u (3 * Q d + ch) = srcRead s (3 * d + ch))

/-! ## The modular adder -/

/-- R119: the key offset is the key's low byte, for negative keys too. -/
def Obligations.KeyOffsetIsTheLowByte : Prop :=
  (∀ key : Word, keyOffset key = key.toInt % 256 ∧ keyOffset key = (key.extractLsb' 0 8).toNat) ∧
  keyOffset 0xFFFFFFFF = 255 ∧ keyOffset 0xFFFFFF00 = 0 ∧ keyOffset 0x0000012C = 44

/-- R120: both directions in the collapsed form with one reduction, and the position offset depends on `(r + c) mod 256`
only. -/
def Obligations.ModularCollapsedForms : Prop :=
  (∀ (key : Word) (r c : Nat) (v : Byte),
    ((modFwdElement key r c v).toNat : Int) = (v.toNat + (key.toNat % 256 : Nat) + 13 * (r + c)) % 256 ∧
    ((modInvElement key r c v).toNat : Int) = (v.toNat - (key.toNat % 256 : Nat) - 13 * (r + c)) % 256) ∧
  (∀ r c : Nat, posOffset r c % 256 = 13 * (((r : Int) + c) % 256) % 256)

/-- R124: the position offsets of the table, their period, and that the 256 anti-diagonals get 256 different offsets. -/
def Obligations.PositionOffsetsRepeatWithPeriod256 : Prop :=
  ([0, 1, 2, 3, 19, 20, 100, 197, 255, 256, 257, 131068].map fun r => posOffset r 0 % 256) =
    [0, 13, 26, 39, 247, 4, 20, 1, 243, 0, 13, 204] ∧
  (∀ r c r' c' : Nat, posOffset r c % 256 = posOffset r' c' % 256 ↔ (r + c) % 256 = (r' + c') % 256)

/-- R117: `MATH.ENC` completes with key offset and position offset added to every element, each sum reduced by true modulo;
`S` and `P` are untouched. The recorded outcome is the model's (log 6), and that `P` and the counter `tables` stay is
log 17. -/
def Obligations.MathEncryptAddsOffsets : Prop :=
  ∀ s : State,
    (s.chans = 3 → ∃ t, exec .mathEnc s = .next t ∧
      (∀ r c ch, r < s.rows.toNat → c < s.cols.toNat → ch < 3 →
        ((dstRead t (3 * (r * s.cols.toNat + c) + ch)).toNat : Int) =
          (((srcRead s (3 * (r * s.cols.toNat + c) + ch)).toNat + s.key.toInt % 256) % 256 + (r + c) * 13) % 256) ∧
      t.S = s.S ∧ t.P = s.P ∧ t.tables = s.tables ∧ s.completedFrom t) ∧
    (s.chans ≠ 3 → exec .mathEnc s = .next (s.afterFault .badChannelCount))

/-- R118: `MATH.DEC` completes with both offsets subtracted, each difference reduced by true modulo; `S` and `P` are
untouched. The recorded outcome is the model's (log 6), and that `P` and the counter `tables` stay is
log 17. -/
def Obligations.MathDecryptSubtractsOffsets : Prop :=
  ∀ s : State,
    (s.chans = 3 → ∃ t, exec .mathDec s = .next t ∧
      (∀ r c ch, r < s.rows.toNat → c < s.cols.toNat → ch < 3 →
        ((dstRead t (3 * (r * s.cols.toNat + c) + ch)).toNat : Int) =
          (((srcRead s (3 * (r * s.cols.toNat + c) + ch)).toNat - (r + c) * 13) % 256 - s.key.toInt % 256) % 256) ∧
      t.S = s.S ∧ t.P = s.P ∧ t.tables = s.tables ∧ s.completedFrom t) ∧
    (s.chans ≠ 3 → exec .mathDec s = .next (s.afterFault .badChannelCount))

/-! ## The channel rotator -/

/-- R129: `CHANNEL.ENC` completes with new red = old blue, new green = old red, new blue = old green in every pixel. The
recorded outcome is the model's (log 6), and that `P` and the counter `tables` stay is
log 17. -/
def Obligations.ChannelEncryptRotates : Prop :=
  ∀ s : State,
    (s.chans = 3 → ∃ t, exec .channelEnc s = .next t ∧
      (∀ p, p < pixels s → dstRead t (3 * p) = srcRead s (3 * p + 2) ∧ dstRead t (3 * p + 1) = srcRead s (3 * p) ∧
        dstRead t (3 * p + 2) = srcRead s (3 * p + 1)) ∧
      t.S = s.S ∧ t.P = s.P ∧ t.tables = s.tables ∧ s.completedFrom t) ∧
    (s.chans ≠ 3 → exec .channelEnc s = .next (s.afterFault .badChannelCount))

/-- R130: `CHANNEL.DEC` completes with new red = old green, new green = old blue, new blue = old red in every pixel. The
recorded outcome is the model's (log 6), and that `P` and the counter `tables` stay is
log 17. -/
def Obligations.ChannelDecryptRotates : Prop :=
  ∀ s : State,
    (s.chans = 3 → ∃ t, exec .channelDec s = .next t ∧
      (∀ p, p < pixels s → dstRead t (3 * p) = srcRead s (3 * p + 1) ∧ dstRead t (3 * p + 1) = srcRead s (3 * p + 2) ∧
        dstRead t (3 * p + 2) = srcRead s (3 * p)) ∧
      t.S = s.S ∧ t.P = s.P ∧ t.tables = s.tables ∧ s.completedFrom t) ∧
    (s.chans ≠ 3 → exec .channelDec s = .next (s.afterFault .badChannelCount))

/-- R132: two `CHANNEL.ENC` equal one `CHANNEL.DEC` and two `CHANNEL.DEC` one `CHANNEL.ENC`; a third one restores the buffer.
The host copies DST to SRC in between, whatever else it changes. -/
def Obligations.ChannelRotationHasOrderThree : Prop :=
  ∀ (s : State) (i j : Instr), (i = .channelEnc ∧ j = .channelDec) ∨ (i = .channelDec ∧ j = .channelEnc) →
    s.chans = 3 → ∃ t w, exec i s = .next t ∧ exec j s = .next w ∧
      ∀ u, u.chans = 3 → pixels u = pixels s → t.sourceIsResult u (elements s) →
        ∃ v, exec i u = .next v ∧ (∀ a, a < elements s → dstRead v a = dstRead w a) ∧
          ∀ x, x.chans = 3 → pixels x = pixels s → v.sourceIsResult x (elements s) →
            ∃ y, exec i x = .next y ∧ ∀ a, a < elements s → dstRead y a = srcRead s a

/-! ## Round trips -/

/-- R100: any two `xor` commands with the same KEY undo each other on the elements both process, whatever else the host has
changed (the mask byte of an address does not depend on the shape, R186). With another KEY an element comes back exactly where
the two masks agree. -/
def Obligations.XorRoundTrip : Prop :=
  ∀ (s : State) (i j : Instr), (i = .xorEnc ∨ i = .xorDec) → (j = .xorEnc ∨ j = .xorDec) → s.chans = 3 →
    ∃ t, exec i s = .next t ∧
      ∀ u, u.chans = 3 → t.sourceIsResult u (elements s) →
        ∃ v, exec j u = .next v ∧ ∀ a, a < elements s → a < elements u →
          (u.key = s.key → dstRead v a = srcRead s a) ∧
          (dstRead v a = srcRead s a ↔ byteOfDraw (stateAfter u.key (a + 1)) = byteOfDraw (stateAfter s.key (a + 1)))

/-- R108: `SWAP.ENC` and `SWAP.DEC`, in either order, undo each other when KEY and the pixel count are unchanged; `SWAP.ENC`
twice does not in general. -/
def Obligations.SwapRoundTrip : Prop :=
  (∀ (s : State) (i j : Instr), (i = .swapEnc ∧ j = .swapDec) ∨ (i = .swapDec ∧ j = .swapEnc) → s.chans = 3 →
    ∃ t, exec i s = .next t ∧
      ∀ u, u.chans = 3 → u.key = s.key → pixels u = pixels s → t.sourceIsResult u (elements s) →
        ∃ v, exec j u = .next v ∧ ∀ a, a < elements s → dstRead v a = srcRead s a) ∧
  (∃ s t u v : State, s.chans = 3 ∧ exec .swapEnc s = .next t ∧
    u.chans = 3 ∧ u.key = s.key ∧ u.rows = s.rows ∧ u.cols = s.cols ∧ t.sourceIsResult u (elements s) ∧
    exec .swapEnc u = .next v ∧ ∃ a, a < elements s ∧ dstRead v a ≠ srcRead s a)

/-- R122: `MATH.ENC` and `MATH.DEC`, in either order, undo each other when `KEY[7:0]` and COLS are unchanged, on the elements
both process; `MATH.ENC` twice adds each offset twice. -/
def Obligations.MathRoundTrip : Prop :=
  (∀ (s : State) (i j : Instr), (i = .mathEnc ∧ j = .mathDec) ∨ (i = .mathDec ∧ j = .mathEnc) → s.chans = 3 →
    ∃ t, exec i s = .next t ∧
      ∀ u, u.chans = 3 → u.key.setWidth 8 = s.key.setWidth 8 → u.cols = s.cols → t.sourceIsResult u (elements s) →
        ∃ v, exec j u = .next v ∧ ∀ a, a < elements s → a < elements u → dstRead v a = srcRead s a) ∧
  (∀ s : State, s.chans = 3 → ∃ t, exec .mathEnc s = .next t ∧
    ∀ u, u.chans = 3 → u.key.setWidth 8 = s.key.setWidth 8 → u.cols = s.cols → t.sourceIsResult u (elements s) →
      ∃ v, exec .mathEnc u = .next v ∧ ∀ r c ch, r < s.rows.toNat → r < u.rows.toNat → c < s.cols.toNat → ch < 3 →
        ((dstRead v (3 * (r * s.cols.toNat + c) + ch)).toNat : Int) =
          ((srcRead s (3 * (r * s.cols.toNat + c) + ch)).toNat + 2 * (s.key.toNat % 256 : Nat) + 2 * (13 * (r + c))) % 256)

/-- R131: `CHANNEL.ENC` and `CHANNEL.DEC`, in either order, undo each other whatever KEY holds, on the elements both
process. -/
def Obligations.ChannelRoundTrip : Prop :=
  ∀ (s : State) (i j : Instr), (i = .channelEnc ∧ j = .channelDec) ∨ (i = .channelDec ∧ j = .channelEnc) → s.chans = 3 →
    ∃ t, exec i s = .next t ∧
      ∀ u, u.chans = 3 → t.sourceIsResult u (elements s) →
        ∃ v, exec j u = .next v ∧ ∀ a, a < elements s → a < elements u → dstRead v a = srcRead s a

/-- R94: the round trips of the mask combiner and of the permutation indexer hold for every generator that meets the contract
of R77, not for `LCG32` alone: here as the data paths run with that generator's mask and table. -/
def Obligations.RoundTripForEveryConformingGenerator : Prop :=
  ∀ (mask : Word → Nat → Nat → List Byte) (table : Word → Nat → List Word), prngContract mask table →
    ∀ (s u : State) (k : Word), u.rows = s.rows → u.cols = s.cols →
      ((maskWith (mask k s.rows.toNat s.cols.toNat) s).sourceIsResult u (elements s) →
        ∀ a, a < elements s → dstRead (maskWith (mask k u.rows.toNat u.cols.toNat) u) a = srcRead s a) ∧
      ((scatterPixels { s with P := table k (pixels s) }).sourceIsResult u (elements s) →
        ∀ a, a < elements s → dstRead (gatherPixels { u with P := table k (pixels u) }) a = srcRead s a) ∧
      ((gatherPixels { s with P := table k (pixels s) }).sourceIsResult u (elements s) →
        ∀ a, a < elements s → dstRead (scatterPixels { u with P := table k (pixels u) }) a = srcRead s a)

/-! ## What a command depends on -/

/-- R90, R101, R110: what `xor` and `swap` leave in the buffer and in STATUS is a function of KEY, CHANS, the pixel count and
the first `3 * N` elements of SRC: not of ROWS and COLS separately, nor of anything else. -/
def Obligations.XorAndSwapDependOnKeyAndPixelCount : Prop :=
  ∀ (s u : State) (i : Instr), i ∈ [Instr.xorEnc, .xorDec, .swapEnc, .swapDec] →
    u.key = s.key → u.chans = s.chans → s.chans = 3 → pixels u = pixels s →
    (∀ a, a < elements s → srcRead u a = srcRead s a) →
    ∃ t v, exec i s = .next t ∧ exec i u = .next v ∧ v.status = t.status ∧
      ∀ a, a < elements s → dstRead v a = dstRead t a

/-- R123, R138: what `math` leaves in the buffer and in STATUS is a function of `KEY[7:0]`, ROWS, COLS, CHANS and the first
`3 * N` elements of SRC. -/
def Obligations.MathDependsOnLowKeyByteAndShape : Prop :=
  ∀ (s u : State) (i : Instr), i ∈ [Instr.mathEnc, .mathDec] →
    u.key.setWidth 8 = s.key.setWidth 8 → u.chans = s.chans → s.chans = 3 → u.rows = s.rows → u.cols = s.cols →
    (∀ a, a < elements s → srcRead u a = srcRead s a) →
    ∃ t v, exec i s = .next t ∧ exec i u = .next v ∧ v.status = t.status ∧
      ∀ a, a < elements s → dstRead v a = dstRead t a

/-- R128, R134: what `channel` leaves in the buffer and in STATUS is a function of CHANS, the pixel count and the first `3 * N`
elements of SRC; the key does not enter. -/
def Obligations.ChannelIgnoresTheKey : Prop :=
  ∀ (s u : State) (i : Instr), i ∈ [Instr.channelEnc, .channelDec] →
    u.chans = s.chans → s.chans = 3 → pixels u = pixels s → (∀ a, a < elements s → srcRead u a = srcRead s a) →
    ∃ t v, exec i s = .next t ∧ exec i u = .next v ∧ v.status = t.status ∧
      ∀ a, a < elements s → dstRead v a = dstRead t a

/-! ## Dispatcher and faults -/

/-- R137: every command ends, completed or faulted; none is refused, since `3 * N` never exceeds this hardware's BUF_CAPACITY
(R45; log 9). The recorded outcome is the model's (log 6). -/
def Obligations.EveryCommandEnds : Prop :=
  ∀ (i : Instr) (s : State), ∃ t, exec i s = .next t ∧ t.outcomes ≠ [] ∧ statusBusy t.status = 0 ∧ statusDone t.status = 1

/-- R66, R151: a write to CMD of any word but the eight legal ones raises `UnknownMethod`, whatever CHANS holds (R140): STATUS
becomes 0x00000106, CMD keeps the offending word, nothing else of the engine changes. The recorded outcome is the model's
(log 6). -/
def Obligations.IllegalWordRaisesUnknownMethod : Prop :=
  ∀ (s : State) (w : Word) (rest : List HostAction), s.pending = .writeReg 4 w :: rest →
    w ∉ [0x0, 0x1, 0x2, 0x3, 0x8, 0x9, 0xA, 0xB] →
    step s = .next { s with pending := rest, cmd := w, status := 0x00000106,
                            outcomes := .faulted .unknownMethod :: s.outcomes }

/-- R152: a write to CMD of one of the eight legal words with `CHANS != 3` raises `BadChannelCount`: STATUS becomes 0x00000206,
CHANS keeps the offending count, nothing else of the engine but CMD changes. The recorded outcome is the model's (log 6). -/
def Obligations.WrongChannelCountFaults : Prop :=
  ∀ (s : State) (w : Word) (rest : List HostAction), s.pending = .writeReg 4 w :: rest →
    w ∈ [0x0, 0x1, 0x2, 0x3, 0x8, 0x9, 0xA, 0xB] → s.chans ≠ 3 →
    step s = .next { s with pending := rest, cmd := w, status := 0x00000206,
                            outcomes := .faulted .badChannelCount :: s.outcomes }

/-- R136, R154: the STATUS fields at the start of a command, when it completes from there, and when it faults. -/
def Obligations.StatusFieldsThroughACommand : Prop :=
  ∀ (s : State) (c : Cause),
    (statusBusy (beginCommand s).status = 1 ∧ statusDone (beginCommand s).status = 0 ∧
      statusErr (beginCommand s).status = 0 ∧ statusCause (beginCommand s).status = 0) ∧
    (statusBusy (complete s).status = 0 ∧ statusDone (complete s).status = 1 ∧
      statusErr (complete s).status = statusErr s.status ∧ statusCause (complete s).status = statusCause s.status) ∧
    (statusBusy (raise c s).status = 0 ∧ statusDone (raise c s).status = 1 ∧ statusErr (raise c s).status = 1 ∧
      statusCause (raise c s).status = causeCode c) ∧
    causeCode .unknownMethod = 1 ∧ causeCode .badChannelCount = 2

/-! ## Host actions -/

/-- R21, R136, R142: a step whose action writes `w` to CMD stores `w` and is `exec` of the decoded command, or the fault entry
of an illegal word. The outcome that entry records is the model's (log 6). -/
def Obligations.StepRunsTheDecodedCommand : Prop :=
  ∀ (s : State) (w : Word) (rest : List HostAction), s.pending = .writeReg 4 w :: rest →
    (∀ i, decode w = .command i → step s = exec i { s with pending := rest, cmd := w }) ∧
    (∀ why, decode w = .illegal why → step s = .next ({ s with pending := rest, cmd := w }.afterFault .unknownMethod))

/-- R142, R27: the writes to every register but CMD. Reserved bits are dropped; STATUS and the numbers from 6 on ignore the
write. That the hidden `P` stays is log 17. -/
def Obligations.RegisterWrites : Prop :=
  ∀ (s : State) (n : Nat) (w : Word) (rest : List HostAction), s.pending = .writeReg n w :: rest →
    (n = 0 → step s = .next { s with pending := rest, key := w }) ∧
    (n = 1 → step s = .next { s with pending := rest, rows := BitVec.ofNat 16 (w.toNat % 65536) }) ∧
    (n = 2 → step s = .next { s with pending := rest, cols := BitVec.ofNat 16 (w.toNat % 65536) }) ∧
    (n = 3 → step s = .next { s with pending := rest, chans := BitVec.ofNat 8 (w.toNat % 256) }) ∧
    (n = 5 ∨ 6 ≤ n → step s = .next { s with pending := rest })

/-- R142, R26, R27: a register read returns the register with its reserved bits as 0, or 0 for a number that does not exist,
and changes nothing of the engine. The reply list is the model's (log 5). That the hidden `P` stays is log 17. -/
def Obligations.RegisterReads : Prop :=
  ∀ (s : State) (n : Nat) (rest : List HostAction), s.pending = .readReg n :: rest →
    ∃ v : Word, step s = .next { s with pending := rest, replies := .word v :: s.replies } ∧
      (n = 0 → v = s.key) ∧ (n = 1 → v.toNat = s.rows.toNat) ∧ (n = 2 → v.toNat = s.cols.toNat) ∧
      (n = 3 → v.toNat = s.chans.toNat) ∧ (n = 4 → v = s.cmd) ∧
      (n = 5 → ∀ b, v.getLsbD b = ((b < 3 || 8 ≤ b && b < 12) && s.status.getLsbD b)) ∧ (6 ≤ n → v = 0)

/-- R142: a host write to an element that exists is what a later read of that element returns; every other element of that
memory, and everything else, is unchanged. That the hidden `P` stays is log 17. -/
def Obligations.BufferWrites : Prop :=
  ∀ (s : State) (a : Nat) (v : Byte) (rest : List HostAction), a < 12884508675 →
    (s.pending = .writeSrc a v :: rest → ∃ m, step s = .next { s with pending := rest, src := m } ∧
      ∀ b, srcRead { s with pending := rest, src := m } b = if b = a then v else srcRead s b) ∧
    (s.pending = .writeDst a v :: rest → ∃ m, step s = .next { s with pending := rest, dst := m } ∧
      ∀ b, dstRead { s with pending := rest, dst := m } b = if b = a then v else dstRead s b)

/-- R142: a host read of an element that exists returns it and changes nothing of the engine. The reply list is the model's
(log 5). That the hidden `P` stays is log 17. -/
def Obligations.BufferReads : Prop :=
  ∀ (s : State) (a : Nat) (rest : List HostAction), a < 12884508675 →
    (s.pending = .readSrc a :: rest →
      step s = .next { s with pending := rest, replies := .element (srcRead s a) :: s.replies }) ∧
    (s.pending = .readDst a :: rest →
      step s = .next { s with pending := rest, replies := .element (dstRead s a) :: s.replies })

/-- The only stop of the machine: a host access to an element that does not exist (R41; the fault is the model's, log 8).
Every other action ends in a next state, and with no action to come the engine idles (log 4). -/
def Obligations.StepStopsOnlyOutsideTheBuffers : Prop :=
  ∀ s : State,
    (∃ act rest, s.pending = act :: rest ∧ act.wellFormed = false ∧ step s = .fault .noSuchElement) ∨
    ((∀ act rest, s.pending = act :: rest → act.wellFormed = true) ∧ ∃ t, step s = .next t ∧ (s.pending = [] → t = s))

/-- R69: running the host actions of a `copy` line leaves `SRC[a] = DST[a]` for every `a < 3 * N` and everything of the engine
but SRC as it was. That the hidden `P` stays is log 17. -/
def Obligations.CopyLineCopiesTheResult : Prop :=
  ∀ s : State, ∃ acts, scriptActions s .copy = some acts ∧
    ∃ t, Host.Core.run Sys2Proof.core acts.length { s with pending := acts ++ s.pending } = .next t ∧
      (∀ a, srcRead t a = if a < 3 * pixels s then dstRead s a else srcRead s a) ∧
      t = { s with src := t.src, replies := t.replies }

/-! ## Reset -/

/-- R171: the `Reset` action clears STATUS and CMD, gives every other piece of the engine's state a free value, and runs no
command: what the host has still to do stays to be done. The form of the free values, with
the counters `resets` and `tables`, and that the host's lists stay are the model's (logs 3 and 17). -/
def Obligations.ResetActionFreesTheState : Prop :=
  ∀ (s : State) (rest : List HostAction), s.pending = .reset :: rest →
    ∃ t, step s = .next t ∧ t.status = 0x00000000 ∧ t.cmd = 0x00000000 ∧
      t.key = Config.freeKey t.resets ∧ t.rows = Config.freeRows t.resets ∧ t.cols = Config.freeCols t.resets ∧
      t.chans = Config.freeChans t.resets ∧ t.S = Config.freeS t.resets ∧ t.P = Config.freeP t.tables ∧
      (∀ a, srcRead t a = Config.freeSrc t.resets a ∧ dstRead t a = Config.freeDst t.resets a) ∧
      t.resets = s.resets + 1 ∧ t.tables = s.tables + 1 ∧
      t.pending = rest ∧ t.replies = s.replies ∧ t.outcomes = s.outcomes

/-- R35's two specified reset values hold in the reset state: `CMD` and `STATUS` are 0. -/
def Obligations.ResetStateClearsCommandAndStatus : Prop :=
  State.reset.cmd = 0x00000000 ∧ State.reset.status = 0x00000000

/-- The invariant holds in the reset state. -/
def Obligations.ResetStateMeetsTheInvariant : Prop := State.reset.inv

/-! ## Whole-machine rules -/

/-- Every step keeps the invariant: both memories canonical and inside the address space (R41, R44, R46), STATUS one of the
four words R139 and R35 allow and the one that tells the newest outcome (log 6). -/
def Obligations.StepKeepsTheInvariant : Prop :=
  ∀ s t : State, s.inv → step s = .next t → t.inv

/-- R30, R31, R34: the hidden state never reaches anything visible. Two runs of the same host actions from states that differ
only in `S` and `P` end alike: in the same stop, or in states that differ only in `S` and `P`. -/
def Obligations.HiddenStateIsNeverObserved : Prop :=
  ∀ (k : Nat) (s : State) (S : Word) (P : List Word),
    (∀ t, Host.Core.run Sys2Proof.core k s = .next t →
      ∃ S' P', Host.Core.run Sys2Proof.core k (s.withHidden S P) = .next (t.withHidden S' P')) ∧
    (∀ f, Host.Core.run Sys2Proof.core k s = .fault f → Host.Core.run Sys2Proof.core k (s.withHidden S P) = .fault f) ∧
    (∀ r, Host.Core.run Sys2Proof.core k s ≠ .refused r)

/-- R21, R22, R25, R30, R142: STATUS, CMD and `S` change only when the host writes CMD or resets the engine. That `P` too stays
put (`t.P = s.P`) is the model's choice (log 17), since R31 and U9 leave it any value between commands; so are the counter
`tables` (log 17), the list `outcomes` (log 6) and that a step with no action to come idles (log 4). -/
def Obligations.OnlyCommandsAndResetChangeStatus : Prop :=
  ∀ s : State, (∀ w rest, s.pending ≠ .writeReg 4 w :: rest) → (∀ rest, s.pending ≠ .reset :: rest) →
    (∀ act rest, s.pending = act :: rest → act.wellFormed = true) → ∃ t, step s = .next t ∧ t.status = s.status ∧ t.cmd = s.cmd ∧
      t.S = s.S ∧ t.P = s.P ∧ t.tables = s.tables ∧ t.outcomes = s.outcomes

/-- R14 to R17, R21, R28, R139: no command, completed or faulted, changes KEY, ROWS, COLS, CHANS or SRC; CMD holds the word
written. -/
def Obligations.CommandsLeaveOperandsAndSource : Prop :=
  ∀ (s : State) (w : Word) (rest : List HostAction), s.pending = .writeReg 4 w :: rest →
    ∃ t, step s = .next t ∧ t.key = s.key ∧ t.rows = s.rows ∧ t.cols = s.cols ∧ t.chans = s.chans ∧ t.src = s.src ∧
      t.cmd = w ∧ t.pending = rest ∧ t.replies = s.replies ∧ t.resets = s.resets ∧
      s.dstKeptFrom t (elements s)
end

