-- ==== Sys2Proof/Laws/State.lean ====
section
/-! SUPPORT. One lemma per field per named update of the state, each true by rfl, so that no proof unfolds a record update. -/

namespace Sys2Proof.Machine

/-! ## `dstWrite` -/

@[simp] theorem dstWrite_key (a : Nat) (v : Byte) (s : State) : (dstWrite a v s).key = s.key := rfl
@[simp] theorem dstWrite_rows (a : Nat) (v : Byte) (s : State) : (dstWrite a v s).rows = s.rows := rfl
@[simp] theorem dstWrite_cols (a : Nat) (v : Byte) (s : State) : (dstWrite a v s).cols = s.cols := rfl
@[simp] theorem dstWrite_chans (a : Nat) (v : Byte) (s : State) : (dstWrite a v s).chans = s.chans := rfl
@[simp] theorem dstWrite_cmd (a : Nat) (v : Byte) (s : State) : (dstWrite a v s).cmd = s.cmd := rfl
@[simp] theorem dstWrite_status (a : Nat) (v : Byte) (s : State) : (dstWrite a v s).status = s.status := rfl
@[simp] theorem dstWrite_src (a : Nat) (v : Byte) (s : State) : (dstWrite a v s).src = s.src := rfl
@[simp] theorem dstWrite_dst (a : Nat) (v : Byte) (s : State) : (dstWrite a v s).dst = s.dst.write a v := rfl
@[simp] theorem dstWrite_S (a : Nat) (v : Byte) (s : State) : (dstWrite a v s).S = s.S := rfl
@[simp] theorem dstWrite_P (a : Nat) (v : Byte) (s : State) : (dstWrite a v s).P = s.P := rfl
@[simp] theorem dstWrite_pending (a : Nat) (v : Byte) (s : State) : (dstWrite a v s).pending = s.pending := rfl
@[simp] theorem dstWrite_replies (a : Nat) (v : Byte) (s : State) : (dstWrite a v s).replies = s.replies := rfl
@[simp] theorem dstWrite_outcomes (a : Nat) (v : Byte) (s : State) : (dstWrite a v s).outcomes = s.outcomes := rfl
@[simp] theorem dstWrite_resets (a : Nat) (v : Byte) (s : State) : (dstWrite a v s).resets = s.resets := rfl
@[simp] theorem dstWrite_tables (a : Nat) (v : Byte) (s : State) : (dstWrite a v s).tables = s.tables := rfl

/-! ## `srcWrite` -/

@[simp] theorem srcWrite_key (a : Nat) (v : Byte) (s : State) : (srcWrite a v s).key = s.key := rfl
@[simp] theorem srcWrite_rows (a : Nat) (v : Byte) (s : State) : (srcWrite a v s).rows = s.rows := rfl
@[simp] theorem srcWrite_cols (a : Nat) (v : Byte) (s : State) : (srcWrite a v s).cols = s.cols := rfl
@[simp] theorem srcWrite_chans (a : Nat) (v : Byte) (s : State) : (srcWrite a v s).chans = s.chans := rfl
@[simp] theorem srcWrite_cmd (a : Nat) (v : Byte) (s : State) : (srcWrite a v s).cmd = s.cmd := rfl
@[simp] theorem srcWrite_status (a : Nat) (v : Byte) (s : State) : (srcWrite a v s).status = s.status := rfl
@[simp] theorem srcWrite_src (a : Nat) (v : Byte) (s : State) : (srcWrite a v s).src = s.src.write a v := rfl
@[simp] theorem srcWrite_dst (a : Nat) (v : Byte) (s : State) : (srcWrite a v s).dst = s.dst := rfl
@[simp] theorem srcWrite_S (a : Nat) (v : Byte) (s : State) : (srcWrite a v s).S = s.S := rfl
@[simp] theorem srcWrite_P (a : Nat) (v : Byte) (s : State) : (srcWrite a v s).P = s.P := rfl
@[simp] theorem srcWrite_pending (a : Nat) (v : Byte) (s : State) : (srcWrite a v s).pending = s.pending := rfl
@[simp] theorem srcWrite_replies (a : Nat) (v : Byte) (s : State) : (srcWrite a v s).replies = s.replies := rfl
@[simp] theorem srcWrite_outcomes (a : Nat) (v : Byte) (s : State) : (srcWrite a v s).outcomes = s.outcomes := rfl
@[simp] theorem srcWrite_resets (a : Nat) (v : Byte) (s : State) : (srcWrite a v s).resets = s.resets := rfl
@[simp] theorem srcWrite_tables (a : Nat) (v : Byte) (s : State) : (srcWrite a v s).tables = s.tables := rfl

/-! ## `reply` -/

@[simp] theorem reply_key (r : Reply) (s : State) : (reply r s).key = s.key := rfl
@[simp] theorem reply_rows (r : Reply) (s : State) : (reply r s).rows = s.rows := rfl
@[simp] theorem reply_cols (r : Reply) (s : State) : (reply r s).cols = s.cols := rfl
@[simp] theorem reply_chans (r : Reply) (s : State) : (reply r s).chans = s.chans := rfl
@[simp] theorem reply_cmd (r : Reply) (s : State) : (reply r s).cmd = s.cmd := rfl
@[simp] theorem reply_status (r : Reply) (s : State) : (reply r s).status = s.status := rfl
@[simp] theorem reply_src (r : Reply) (s : State) : (reply r s).src = s.src := rfl
@[simp] theorem reply_dst (r : Reply) (s : State) : (reply r s).dst = s.dst := rfl
@[simp] theorem reply_S (r : Reply) (s : State) : (reply r s).S = s.S := rfl
@[simp] theorem reply_P (r : Reply) (s : State) : (reply r s).P = s.P := rfl
@[simp] theorem reply_pending (r : Reply) (s : State) : (reply r s).pending = s.pending := rfl
@[simp] theorem reply_replies (r : Reply) (s : State) : (reply r s).replies = r :: s.replies := rfl
@[simp] theorem reply_outcomes (r : Reply) (s : State) : (reply r s).outcomes = s.outcomes := rfl
@[simp] theorem reply_resets (r : Reply) (s : State) : (reply r s).resets = s.resets := rfl
@[simp] theorem reply_tables (r : Reply) (s : State) : (reply r s).tables = s.tables := rfl

/-! ## `beginCommand` -/

@[simp] theorem beginCommand_key (s : State) : (beginCommand s).key = s.key := rfl
@[simp] theorem beginCommand_rows (s : State) : (beginCommand s).rows = s.rows := rfl
@[simp] theorem beginCommand_cols (s : State) : (beginCommand s).cols = s.cols := rfl
@[simp] theorem beginCommand_chans (s : State) : (beginCommand s).chans = s.chans := rfl
@[simp] theorem beginCommand_cmd (s : State) : (beginCommand s).cmd = s.cmd := rfl
@[simp] theorem beginCommand_status (s : State) : (beginCommand s).status = statusStart := rfl
@[simp] theorem beginCommand_src (s : State) : (beginCommand s).src = s.src := rfl
@[simp] theorem beginCommand_dst (s : State) : (beginCommand s).dst = s.dst := rfl
@[simp] theorem beginCommand_S (s : State) : (beginCommand s).S = s.S := rfl
@[simp] theorem beginCommand_P (s : State) : (beginCommand s).P = s.P := rfl
@[simp] theorem beginCommand_pending (s : State) : (beginCommand s).pending = s.pending := rfl
@[simp] theorem beginCommand_replies (s : State) : (beginCommand s).replies = s.replies := rfl
@[simp] theorem beginCommand_outcomes (s : State) : (beginCommand s).outcomes = s.outcomes := rfl
@[simp] theorem beginCommand_resets (s : State) : (beginCommand s).resets = s.resets := rfl
@[simp] theorem beginCommand_tables (s : State) : (beginCommand s).tables = s.tables := rfl

/-! ## `complete` -/

@[simp] theorem complete_key (s : State) : (complete s).key = s.key := rfl
@[simp] theorem complete_rows (s : State) : (complete s).rows = s.rows := rfl
@[simp] theorem complete_cols (s : State) : (complete s).cols = s.cols := rfl
@[simp] theorem complete_chans (s : State) : (complete s).chans = s.chans := rfl
@[simp] theorem complete_cmd (s : State) : (complete s).cmd = s.cmd := rfl
@[simp] theorem complete_status (s : State) : (complete s).status = statusComplete s.status := rfl
@[simp] theorem complete_src (s : State) : (complete s).src = s.src := rfl
@[simp] theorem complete_dst (s : State) : (complete s).dst = s.dst := rfl
@[simp] theorem complete_S (s : State) : (complete s).S = s.S := rfl
@[simp] theorem complete_P (s : State) : (complete s).P = s.P := rfl
@[simp] theorem complete_pending (s : State) : (complete s).pending = s.pending := rfl
@[simp] theorem complete_replies (s : State) : (complete s).replies = s.replies := rfl
@[simp] theorem complete_outcomes (s : State) : (complete s).outcomes = .completed :: s.outcomes := rfl
@[simp] theorem complete_resets (s : State) : (complete s).resets = s.resets := rfl
@[simp] theorem complete_tables (s : State) : (complete s).tables = s.tables := rfl

/-! ## `raise` -/

@[simp] theorem raise_key (c : Cause) (s : State) : (raise c s).key = s.key := rfl
@[simp] theorem raise_rows (c : Cause) (s : State) : (raise c s).rows = s.rows := rfl
@[simp] theorem raise_cols (c : Cause) (s : State) : (raise c s).cols = s.cols := rfl
@[simp] theorem raise_chans (c : Cause) (s : State) : (raise c s).chans = s.chans := rfl
@[simp] theorem raise_cmd (c : Cause) (s : State) : (raise c s).cmd = s.cmd := rfl
@[simp] theorem raise_status (c : Cause) (s : State) : (raise c s).status = statusRaise c := rfl
@[simp] theorem raise_src (c : Cause) (s : State) : (raise c s).src = s.src := rfl
@[simp] theorem raise_dst (c : Cause) (s : State) : (raise c s).dst = s.dst := rfl
@[simp] theorem raise_S (c : Cause) (s : State) : (raise c s).S = s.S := rfl
@[simp] theorem raise_P (c : Cause) (s : State) : (raise c s).P = s.P := rfl
@[simp] theorem raise_pending (c : Cause) (s : State) : (raise c s).pending = s.pending := rfl
@[simp] theorem raise_replies (c : Cause) (s : State) : (raise c s).replies = s.replies := rfl
@[simp] theorem raise_outcomes (c : Cause) (s : State) : (raise c s).outcomes = .faulted c :: s.outcomes := rfl
@[simp] theorem raise_resets (c : Cause) (s : State) : (raise c s).resets = s.resets := rfl
@[simp] theorem raise_tables (c : Cause) (s : State) : (raise c s).tables = s.tables := rfl

/-! ## `releaseTable` -/

@[simp] theorem releaseTable_key (s : State) : (releaseTable s).key = s.key := rfl
@[simp] theorem releaseTable_rows (s : State) : (releaseTable s).rows = s.rows := rfl
@[simp] theorem releaseTable_cols (s : State) : (releaseTable s).cols = s.cols := rfl
@[simp] theorem releaseTable_chans (s : State) : (releaseTable s).chans = s.chans := rfl
@[simp] theorem releaseTable_cmd (s : State) : (releaseTable s).cmd = s.cmd := rfl
@[simp] theorem releaseTable_status (s : State) : (releaseTable s).status = s.status := rfl
@[simp] theorem releaseTable_src (s : State) : (releaseTable s).src = s.src := rfl
@[simp] theorem releaseTable_dst (s : State) : (releaseTable s).dst = s.dst := rfl
@[simp] theorem releaseTable_S (s : State) : (releaseTable s).S = s.S := rfl
@[simp] theorem releaseTable_P (s : State) : (releaseTable s).P = Config.freeP (s.tables + 1) := rfl
@[simp] theorem releaseTable_pending (s : State) : (releaseTable s).pending = s.pending := rfl
@[simp] theorem releaseTable_replies (s : State) : (releaseTable s).replies = s.replies := rfl
@[simp] theorem releaseTable_outcomes (s : State) : (releaseTable s).outcomes = s.outcomes := rfl
@[simp] theorem releaseTable_resets (s : State) : (releaseTable s).resets = s.resets := rfl
@[simp] theorem releaseTable_tables (s : State) : (releaseTable s).tables = s.tables + 1 := rfl

/-! ## `resetAction` -/

@[simp] theorem resetAction_key (s : State) : (resetAction s).key = Config.freeKey (s.resets + 1) := rfl
@[simp] theorem resetAction_rows (s : State) : (resetAction s).rows = Config.freeRows (s.resets + 1) := rfl
@[simp] theorem resetAction_cols (s : State) : (resetAction s).cols = Config.freeCols (s.resets + 1) := rfl
@[simp] theorem resetAction_chans (s : State) : (resetAction s).chans = Config.freeChans (s.resets + 1) := rfl
@[simp] theorem resetAction_cmd (s : State) : (resetAction s).cmd = 0 := rfl
@[simp] theorem resetAction_status (s : State) : (resetAction s).status = 0 := rfl
@[simp] theorem resetAction_src (s : State) : (resetAction s).src = [] := rfl
@[simp] theorem resetAction_dst (s : State) : (resetAction s).dst = [] := rfl
@[simp] theorem resetAction_S (s : State) : (resetAction s).S = Config.freeS (s.resets + 1) := rfl
@[simp] theorem resetAction_P (s : State) : (resetAction s).P = Config.freeP (s.tables + 1) := rfl
@[simp] theorem resetAction_pending (s : State) : (resetAction s).pending = s.pending := rfl
@[simp] theorem resetAction_replies (s : State) : (resetAction s).replies = s.replies := rfl
@[simp] theorem resetAction_outcomes (s : State) : (resetAction s).outcomes = s.outcomes := rfl
@[simp] theorem resetAction_resets (s : State) : (resetAction s).resets = s.resets + 1 := rfl
@[simp] theorem resetAction_tables (s : State) : (resetAction s).tables = s.tables + 1 := rfl

/-! ## `regWrite`, by register number -/

@[simp] theorem regWrite_key (w : Word) (s : State) : regWrite 0 w s = { s with key := w } := rfl
@[simp] theorem regWrite_rows (w : Word) (s : State) : regWrite 1 w s = { s with rows := w.extractLsb' 0 16 } := rfl
@[simp] theorem regWrite_cols (w : Word) (s : State) : regWrite 2 w s = { s with cols := w.extractLsb' 0 16 } := rfl
@[simp] theorem regWrite_chans (w : Word) (s : State) : regWrite 3 w s = { s with chans := w.extractLsb' 0 8 } := rfl
@[simp] theorem regWrite_cmd (w : Word) (s : State) : regWrite 4 w s = { s with cmd := w } := rfl
@[simp] theorem regWrite_status (w : Word) (s : State) : regWrite 5 w s = s := rfl

/-- Register numbers 6 and above ignore the write (R26). -/
theorem regWrite_missing {n : Nat} (hn : 6 ≤ n) (w : Word) (s : State) : regWrite n w s = s := by
  match n, hn with
  | _ + 6, _ => rfl

/-- Register numbers 6 and above read 0 (R26). -/
theorem regRead_missing {n : Nat} (hn : 6 ≤ n) (s : State) : regRead n s = 0 := by
  match n, hn with
  | _ + 6, _ => rfl

/-! ## The derived quantities depend on the shape registers alone -/

theorem pixels_congr {s t : State} (hr : t.rows = s.rows) (hc : t.cols = s.cols) : pixels t = pixels s := by
  simp only [pixels, hr, hc]

theorem elements_congr {s t : State} (hr : t.rows = s.rows) (hc : t.cols = s.cols) : elements t = elements s := by
  simp only [elements, pixels_congr hr hc]

theorem elements_eq (s : State) : elements s = 3 * pixels s := rfl

theorem srcRead_congr {s t : State} (hs : t.src = s.src) (hn : t.resets = s.resets) (a : Nat) :
    srcRead t a = srcRead s a := by
  simp only [srcRead, hs, hn]

end Sys2Proof.Machine
end

