-- ==== Sys2Proof/Laws/Flags.lean ====
section
/-! SUPPORT. The STATUS word: what each field of a packed word is, and the words of a start, an end and a fault. -/

namespace Sys2Proof.Machine

@[simp] theorem statusBusy_pack (b d e : BitVec 1) (c : BitVec 4) : statusBusy (packStatus b d e c) = b := by
  revert b d e c; decide

@[simp] theorem statusDone_pack (b d e : BitVec 1) (c : BitVec 4) : statusDone (packStatus b d e c) = d := by
  revert b d e c; decide

@[simp] theorem statusErr_pack (b d e : BitVec 1) (c : BitVec 4) : statusErr (packStatus b d e c) = e := by
  revert b d e c; decide

@[simp] theorem statusCause_pack (b d e : BitVec 1) (c : BitVec 4) : statusCause (packStatus b d e c) = c := by
  revert b d e c; decide

/-- STATUS of a command that started and completed: DONE alone (R139). -/
@[simp] theorem statusComplete_start : statusComplete statusStart = 0x00000002 := by decide

theorem statusRaise_unknownMethod : statusRaise .unknownMethod = 0x00000106 := by decide

theorem statusRaise_badChannelCount : statusRaise .badChannelCount = 0x00000206 := by decide

theorem statusFields_eq : statusFields = 0x00000F07 := by decide

/-- Reading STATUS keeps every field (R22). -/
theorem statusRead_pack (b d e : BitVec 1) (c : BitVec 4) : statusRead (packStatus b d e c) = packStatus b d e c := by
  revert b d e c; decide

end Sys2Proof.Machine
end

