-- ==== Sys2Proof/Laws/Memory.lean ====
section
/-! SUPPORT. One element of a memory: read after write, the canonical form and the address range kept by every write. -/

namespace Sys2Proof.Machine

/-! ## Read after write -/

theorem Memory.read_write (m : Memory) (a b : Nat) (v : Byte) :
    (Memory.write m a v).read b = if b = a then some v else m.read b := by
  induction m with
  | nil => rfl
  | cons c m ih =>
    obtain ⟨d, x⟩ := c
    simp only [Memory.write]
    split
    · rfl
    · split
      · subst_vars
        simp only [Memory.read]
        split <;> rfl
      · simp only [Memory.read, ih]
        split <;> split <;> first | rfl | omega

@[simp] theorem Memory.read_write_same (m : Memory) (a : Nat) (v : Byte) : (Memory.write m a v).read a = some v := by
  rw [Memory.read_write, if_pos rfl]

theorem Memory.read_write_other (m : Memory) {a b : Nat} (h : b ≠ a) (v : Byte) :
    (Memory.write m a v).read b = m.read b := by
  rw [Memory.read_write, if_neg h]

/-! ## The canonical form -/

theorem Memory.mem_write {m : Memory} {a : Nat} {v : Byte} {c : Host.Cell} (h : c ∈ Memory.write m a v) :
    c = (a, v) ∨ c ∈ m := by
  induction m with
  | nil => exact .inl (List.mem_singleton.mp h)
  | cons d m ih =>
    obtain ⟨b, x⟩ := d
    simp only [Memory.write] at h
    split at h
    · exact List.mem_cons.mp h
    · split at h
      · exact (List.mem_cons.mp h).imp_right (List.mem_cons_of_mem _)
      · rcases List.mem_cons.mp h with rfl | h
        · exact .inr (List.mem_cons_self ..)
        · exact (ih h).imp_right (List.mem_cons_of_mem _)

/-- A write keeps the addresses strictly rising. -/
theorem Memory.write_wf {m : Memory} (h : m.wf) (a : Nat) (v : Byte) : (Memory.write m a v).wf := by
  induction m with
  | nil => exact List.pairwise_singleton _ _
  | cons d m ih =>
    obtain ⟨b, x⟩ := d
    obtain ⟨hb, hm⟩ := List.pairwise_cons.mp h
    simp only [Memory.write]
    split
    · rename_i hab
      refine List.pairwise_cons.mpr ⟨fun c hc => ?_, h⟩
      rcases List.mem_cons.mp hc with rfl | hc
      · exact hab
      · exact hab.trans (hb c hc)
    · split
      · subst_vars
        exact List.pairwise_cons.mpr ⟨hb, hm⟩
      · refine List.pairwise_cons.mpr ⟨fun c hc => ?_, ih hm⟩
        rcases Memory.mem_write hc with rfl | hc
        · show b < a
          omega
        · exact hb c hc

/-- A write to an element that exists keeps every listed address inside the address space. -/
theorem Memory.write_inRange {m : Memory} (h : m.inRange) {a : Nat} (ha : a < Config.bufCapacity) (v : Byte) :
    (Memory.write m a v).inRange := by
  intro c hc
  rcases Memory.mem_write hc with rfl | hc
  · exact ha
  · exact h c hc

theorem Memory.nil_wf : Memory.wf [] := .nil

theorem Memory.nil_inRange : Memory.inRange [] := fun _ h => nomatch h

theorem State.reset_src_wf : State.reset.src.wf := Memory.nil_wf

theorem State.reset_dst_wf : State.reset.dst.wf := Memory.nil_wf

/-! ## The engine's and the host's accesses -/

theorem dstRead_dstWrite (a b : Nat) (v : Byte) (s : State) :
    dstRead (dstWrite a v s) b = if b = a then v else dstRead s b := by
  simp only [dstRead, dstWrite, Memory.read_write]
  split <;> rfl

theorem srcRead_srcWrite (a b : Nat) (v : Byte) (s : State) :
    srcRead (srcWrite a v s) b = if b = a then v else srcRead s b := by
  simp only [srcRead, srcWrite, Memory.read_write]
  split <;> rfl

@[simp] theorem srcRead_dstWrite (a b : Nat) (v : Byte) (s : State) : srcRead (dstWrite a v s) b = srcRead s b := rfl

@[simp] theorem dstRead_srcWrite (a b : Nat) (v : Byte) (s : State) : dstRead (srcWrite a v s) b = dstRead s b := rfl

end Sys2Proof.Machine
end

