-- ==== Sys2Proof/Laws/Loops.lean ====
section
/-! SUPPORT. Bounded loops, and the shape every transform takes: a sequence of writes to DST, one per element. -/

namespace Sys2Proof.Machine

/-! ## `loopUp` -/

@[simp] theorem loopUp_zero {σ : Type} (body : Nat → σ → σ) (x : σ) : loopUp 0 body x = x := rfl

theorem loopUp_succ {σ : Type} (n : Nat) (body : Nat → σ → σ) (x : σ) :
    loopUp (n + 1) body x = body n (loopUp n body x) := rfl

/-- The loop rule: what holds before the loop and is carried from position `i` to `i + 1` holds after it. -/
theorem loopUp_invariant {σ : Type} (inv : Nat → σ → Prop) {n : Nat} {body : Nat → σ → σ} {x : σ} (h0 : inv 0 x)
    (hstep : ∀ i y, i < n → inv i y → inv (i + 1) (body i y)) : inv n (loopUp n body x) := by
  induction n with
  | zero => exact h0
  | succ n ih => exact hstep n _ n.lt_succ_self (ih fun i y hi => hstep i y (by omega))

theorem loopUp_congr {σ : Type} {n : Nat} {f g : Nat → σ → σ} (h : ∀ i y, i < n → f i y = g i y) (x : σ) :
    loopUp n f x = loopUp n g x := by
  induction n with
  | zero => rfl
  | succ n ih =>
    rw [loopUp_succ, loopUp_succ, ih fun i y hi => h i y (by omega)]
    exact h n _ n.lt_succ_self

theorem loopUp_add {σ : Type} (m n : Nat) (body : Nat → σ → σ) (x : σ) :
    loopUp (m + n) body x = loopUp n (fun i => body (m + i)) (loopUp m body x) := by
  induction n with
  | zero => rfl
  | succ n ih => rw [← Nat.add_assoc, loopUp_succ, ih, loopUp_succ]

/-- A loop over `n` groups of `m` is one loop over `m * n`. -/
theorem loopUp_nest {σ : Type} {m : Nat} (hm : 0 < m) (n : Nat) (body : Nat → Nat → σ → σ) (x : σ) :
    loopUp n (fun i => loopUp m (body i)) x = loopUp (m * n) (fun k => body (k / m) (k % m)) x := by
  induction n with
  | zero => rfl
  | succ n ih =>
    rw [loopUp_succ, ih, Nat.mul_succ, loopUp_add]
    refine loopUp_congr (fun i y hi => ?_) _
    rw [Nat.mul_add_div hm, Nat.mul_add_mod, Nat.div_eq_of_lt hi, Nat.mod_eq_of_lt hi, Nat.add_zero]

/-! ## A sequence of writes -/

/-- The memory after the writes `(addr i, val i)` for `i = 0 .. n - 1`. -/
def writeSeq (n : Nat) (addr : Nat → Nat) (val : Nat → Byte) (m : Memory) : Memory :=
  loopUp n (fun i x => x.write (addr i) (val i)) m

theorem writeSeq_succ (n : Nat) (addr : Nat → Nat) (val : Nat → Byte) (m : Memory) :
    writeSeq (n + 1) addr val m = (writeSeq n addr val m).write (addr n) (val n) := rfl

theorem writeSeq_read_outside {n : Nat} {addr : Nat → Nat} {b : Nat} (h : ∀ i, i < n → addr i ≠ b) (val : Nat → Byte)
    (m : Memory) : (writeSeq n addr val m).read b = m.read b := by
  induction n with
  | zero => rfl
  | succ n ih =>
    rw [writeSeq_succ, Memory.read_write_other _ (h n n.lt_succ_self).symm, ih fun i hi => h i (by omega)]

/-- Where no two writes share an address, each address reads as what was written there. -/
theorem writeSeq_read {n : Nat} {addr : Nat → Nat} (inj : ∀ i j, i < n → j < n → addr i = addr j → i = j)
    (val : Nat → Byte) (m : Memory) {i : Nat} (hi : i < n) : (writeSeq n addr val m).read (addr i) = some (val i) := by
  induction n with
  | zero => omega
  | succ n ih =>
    rw [writeSeq_succ, Memory.read_write]
    split
    · rename_i h
      rw [inj i n hi n.lt_succ_self h]
    · rename_i h
      have hin : i < n := by
        rcases Nat.lt_succ_iff_lt_or_eq.mp hi with h' | rfl
        · exact h'
        · exact absurd rfl h
      exact ih (fun i j hi hj => inj i j (by omega) (by omega)) hin

theorem writeSeq_wf {m : Memory} (h : m.wf) (n : Nat) (addr : Nat → Nat) (val : Nat → Byte) :
    (writeSeq n addr val m).wf :=
  loopUp_invariant (fun _ x => Memory.wf x) h fun i _ _ hx => Memory.write_wf hx (addr i) (val i)

theorem writeSeq_inRange {m : Memory} (h : m.inRange) {n : Nat} {addr : Nat → Nat}
    (ha : ∀ i, i < n → addr i < Config.bufCapacity) (val : Nat → Byte) : (writeSeq n addr val m).inRange :=
  loopUp_invariant (fun _ x => Memory.inRange x) h fun i _ hi hx => Memory.write_inRange hx (ha i hi) (val i)

theorem writeSeq_congr {n : Nat} {a a' : Nat → Nat} {v v' : Nat → Byte} (ha : ∀ i, i < n → a i = a' i)
    (hv : ∀ i, i < n → v i = v' i) (m : Memory) : writeSeq n a v m = writeSeq n a' v' m :=
  loopUp_congr (fun i x hi => by rw [ha i hi, hv i hi]) m

/-- A loop of DST writes whose values do not depend on DST changes DST alone, by `writeSeq`. -/
theorem loopUp_dstWrite (n : Nat) (addr : Nat → Nat) (val : Nat → Byte) (s : State) :
    loopUp n (fun i x => dstWrite (addr i) (val i) x) s = { s with dst := writeSeq n addr val s.dst } := by
  induction n with
  | zero => rfl
  | succ n ih =>
    rw [loopUp_succ, ih]
    rfl

/-- As `loopUp_dstWrite`, for values computed from the running state by a function that DST does not enter. -/
theorem loopUp_dstWrite_of {n : Nat} {addr : Nat → State → Nat} {val : Nat → State → Byte} (s : State)
    (ha : ∀ i m, i < n → addr i { s with dst := m } = addr i s) (hv : ∀ i m, i < n → val i { s with dst := m } = val i s) :
    loopUp n (fun i x => dstWrite (addr i x) (val i x) x) s =
      { s with dst := writeSeq n (fun i => addr i s) (fun i => val i s) s.dst } := by
  induction n with
  | zero => rfl
  | succ n ih =>
    rw [loopUp_succ, ih (fun i m hi => ha i m (by omega)) fun i m hi => hv i m (by omega), writeSeq_succ]
    simp only [ha n _ n.lt_succ_self, hv n _ n.lt_succ_self]
    rfl

end Sys2Proof.Machine
end

