-- ==== Sys2Proof/Laws/Command.lean ====
section
/-! SUPPORT. What running a command can do, said once: with three channels it completes, with another count it faults, and
with this hardware's capacity it is never refused. -/

namespace Sys2Proof.Machine

theorem pixels_le (s : State) : pixels s ≤ 4294836225 := by
  have hr : s.rows.toNat ≤ 65535 := by have := s.rows.isLt; omega
  have hc : s.cols.toNat ≤ 65535 := by have := s.cols.isLt; omega
  exact Nat.mul_le_mul hr hc

/-- `3 * N <= BUF_CAPACITY` always holds on this hardware (R45). -/
theorem elements_le_capacity (s : State) : elements s ≤ Config.bufCapacity := by
  have := pixels_le s
  simp only [elements, channels, Config.bufCapacity]
  omega

theorem runCommand_of_three {s : State} (h : s.chans = 3) (transform : State → State) :
    runCommand transform s = .next (complete (transform (beginCommand s))) := by
  have := elements_le_capacity s
  simp only [runCommand, h, ne_eq, not_true_eq_false, if_false, if_neg (by omega : ¬ Config.bufCapacity < elements s)]

theorem runCommand_of_not_three {s : State} (h : s.chans ≠ 3) (transform : State → State) :
    runCommand transform s = .next (raise .badChannelCount (beginCommand s)) := by
  simp only [runCommand, if_pos h]

/-- Starting a command and raising at once leaves STATUS at the cause and everything else as it was (R154). -/
theorem raise_beginCommand (c : Cause) (s : State) : raise c (beginCommand s) = raise c s := rfl

end Sys2Proof.Machine
end

