-- ==== Sys2Proof/Laws/Prng.lean ====
section
/-! SUPPORT. The generator's operations, one lemma each: how many draws they make, and the shape of what they return. -/

namespace Sys2Proof.Machine

@[simp] theorem seed_eq (k : Word) : seed k = k := rfl

@[simp] theorem stateAfter_zero (S : Word) : stateAfter S 0 = S := rfl

theorem stateAfter_succ (S : Word) (n : Nat) : stateAfter S (n + 1) = lcgNext (stateAfter S n) := rfl

/-- Draws can be counted from the first one on. -/
theorem stateAfter_next (S : Word) (n : Nat) : stateAfter (lcgNext S) n = stateAfter S (n + 1) := by
  induction n with
  | zero => rw [stateAfter_zero, stateAfter_succ, stateAfter_zero]
  | succ n ih => rw [stateAfter_succ, ih, ← stateAfter_succ]

@[simp] theorem drawByte_fst (S : Word) : (drawByte S).1 = byteOfDraw (lcgNext S) := rfl

@[simp] theorem drawByte_snd (S : Word) : (drawByte S).2 = lcgNext S := rfl

@[simp] theorem drawBelow_fst (S : Word) (n : Nat) : (drawBelow S n).1 = belowOfDraw (lcgNext S) n := rfl

@[simp] theorem drawBelow_snd (S : Word) (n : Nat) : (drawBelow S n).2 = lcgNext S := rfl

@[simp] theorem drawBytes_length (n : Nat) (S : Word) : (drawBytes n S).1.length = n := by
  induction n generalizing S with
  | zero => rfl
  | succ n ih => simp only [drawBytes, List.length_cons, ih]

@[simp] theorem swapEntries_length (t : List Word) (i j : Nat) : (swapEntries t i j).length = t.length := by
  simp only [swapEntries, List.length_set]

@[simp] theorem identityTable_length (n : Nat) : (identityTable n).length = n := by
  simp only [identityTable, List.length_map, List.length_range]

theorem shuffleFrom_length (i : Nat) (x : List Word × Word) : (shuffleFrom i x).1.length = x.1.length := by
  induction i generalizing x with
  | zero => rfl
  | succ i ih => rw [shuffleFrom, ih]; exact swapEntries_length ..

@[simp] theorem drawPermutation_length (S : Word) (n : Nat) : (drawPermutation S n).1.length = n := by
  rw [drawPermutation, shuffleFrom_length, identityTable_length]

/-- The identity ordering is a permutation, for every pixel count a 32-bit entry can index. -/
theorem identityTable_isPermutation {n : Nat} (hn : n ≤ 2 ^ 32) : isPermutation (identityTable n) n := by
  have h : (identityTable n).map BitVec.toNat = List.range n := by
    rw [identityTable, List.map_map]
    refine (List.map_congr_left fun i hi => ?_).trans (List.map_id _)
    have := List.mem_range.mp hi
    simp only [Function.comp_apply, BitVec.toNat_ofNat, id_eq]
    exact Nat.mod_eq_of_lt (by omega)
  rw [isPermutation, h]

/-! ## Entries of a table that is a permutation -/

theorem isPermutation_length {t : List Word} {n : Nat} (h : isPermutation t n) : t.length = n := by
  have := h.length_eq
  rwa [List.length_map, List.length_range] at this

theorem entry_eq {t : List Word} {i : Nat} (hi : i < t.length) : entry t i = t[i].toNat := by
  simp only [entry, List.getD_eq_getElem?_getD, List.getElem?_eq_getElem hi, Option.getD_some]

theorem entry_lt {t : List Word} {n i : Nat} (h : isPermutation t n) (hi : i < n) : entry t i < n := by
  have hl := isPermutation_length h
  rw [entry_eq (by omega)]
  exact List.mem_range.mp (h.mem_iff.mp (List.mem_map.mpr ⟨_, List.getElem_mem _, rfl⟩))

theorem entry_injective {t : List Word} {n i j : Nat} (h : isPermutation t n) (hi : i < n) (hj : j < n)
    (he : entry t i = entry t j) : i = j := by
  have hl := isPermutation_length h
  rw [entry_eq (by omega), entry_eq (by omega)] at he
  have hd : (t.map BitVec.toNat).Nodup := h.nodup_iff.mpr List.nodup_range
  exact (hd.getElem_inj_iff (hi := by simpa [hl] using hi) (hj := by simpa [hl] using hj)).mp (by simpa using he)

theorem entry_surjective {t : List Word} {n d : Nat} (h : isPermutation t n) (hd : d < n) :
    ∃ i, i < n ∧ entry t i = d := by
  have hl := isPermutation_length h
  obtain ⟨w, hw, rfl⟩ := List.mem_map.mp (h.mem_iff.mpr (List.mem_range.mpr hd))
  obtain ⟨i, hi, rfl⟩ := List.getElem_of_mem hw
  exact ⟨i, by omega, entry_eq hi⟩

end Sys2Proof.Machine
end

