-- ==== Sys2Proof/Laws/Transforms.lean ====
section
/-! SUPPORT. Everything each transform does, as one equation: DST takes one write per element, `S`, `P` and the model's
counter `tables` as stated, nothing else changes. -/

namespace Sys2Proof.Machine

/-! ## The mask combiner -/

theorem maskXorLoop_eq (n : Nat) (s : State) :
    loopUp n maskXorElement s =
      { s with S := stateAfter s.S n
               dst := writeSeq n id (fun a => combine (srcRead s a) (byteOfDraw (stateAfter s.S (a + 1)))) s.dst } := by
  induction n with
  | zero => rfl
  | succ n ih =>
    rw [loopUp_succ, ih]
    rfl

theorem maskXor_eq (s : State) :
    maskXor s =
      { s with S := stateAfter s.key (elements s)
               dst := writeSeq (elements s) id
                 (fun a => combine (srcRead s a) (byteOfDraw (stateAfter s.key (a + 1)))) s.dst } :=
  maskXorLoop_eq (elements s) { s with S := seed s.key }

theorem maskWith_eq (mask : List Byte) (s : State) :
    maskWith mask s =
      { s with dst := writeSeq (elements s) id (fun a => combine (srcRead s a) (mask.getD a 0)) s.dst } :=
  loopUp_dstWrite_of (addr := fun a _ => a) (val := fun a x => combine (srcRead x a) (mask.getD a 0)) s
    (fun _ _ _ => rfl) fun _ _ _ => rfl

/-! ## The permutation indexer -/

/-- The element address of the `k`-th element is `k` itself. -/
theorem pixelAddr_div_mod (k : Nat) : pixelAddr (k / 3) (k % 3) = k := Nat.div_add_mod k 3

theorem scatterPixels_eq (s : State) :
    scatterPixels s =
      { s with dst := writeSeq (elements s) (fun k => pixelAddr (entry s.P (k / 3)) (k % 3)) (srcRead s) s.dst } := by
  have h := loopUp_nest (m := channels) (by decide) (pixels s)
    (fun i ch x => dstWrite (pixelAddr (entry x.P i) ch) (srcRead x (pixelAddr i ch)) x) s
  have h' := loopUp_dstWrite_of (n := elements s) (addr := fun k x => pixelAddr (entry x.P (k / 3)) (k % 3))
    (val := fun k x => srcRead x (pixelAddr (k / 3) (k % 3))) s (fun _ _ _ => rfl) fun _ _ _ => rfl
  have hm : scatterPixels s = loopUp (pixels s) (fun i => loopUp channels
      (fun ch x => dstWrite (pixelAddr (entry x.P i) ch) (srcRead x (pixelAddr i ch)) x)) s :=
    loopUp_congr (fun i y _ => rfl) s
  rw [hm, h]
  refine h'.trans ?_
  simp only [pixelAddr_div_mod]

theorem gatherPixels_eq (s : State) :
    gatherPixels s =
      { s with dst := writeSeq (elements s) id (fun k => srcRead s (pixelAddr (entry s.P (k / 3)) (k % 3))) s.dst } := by
  have h := loopUp_nest (m := channels) (by decide) (pixels s)
    (fun i ch x => dstWrite (pixelAddr i ch) (srcRead x (pixelAddr (entry x.P i) ch)) x) s
  have h' := loopUp_dstWrite_of (n := elements s) (addr := fun k _ => pixelAddr (k / 3) (k % 3))
    (val := fun k x => srcRead x (pixelAddr (entry x.P (k / 3)) (k % 3))) s (fun _ _ _ => rfl) fun _ _ _ => rfl
  have hm : gatherPixels s = loopUp (pixels s) (fun i => loopUp channels
      (fun ch x => dstWrite (pixelAddr i ch) (srcRead x (pixelAddr (entry x.P i) ch)) x)) s :=
    loopUp_congr (fun i y _ => rfl) s
  rw [hm, h]
  refine h'.trans ?_
  simp only [pixelAddr_div_mod]
  rfl

/-- `SWAP.ENC`'s transform: pixel `i` to slot `P[i]` of the table drawn from KEY, which is then released. -/
theorem permFwd_eq (s : State) :
    permFwd s =
      { s with dst := writeSeq (elements s)
                 (fun k => pixelAddr (entry (drawPermutation s.key (pixels s)).1 (k / 3)) (k % 3)) (srcRead s) s.dst
               S := (drawPermutation s.key (pixels s)).2
               P := Config.freeP (s.tables + 1)
               tables := s.tables + 1 } := by
  rw [permFwd, scatterPixels_eq]
  rfl

/-- `SWAP.DEC`'s transform: slot `i` from pixel `P[i]` of the table drawn from KEY, which is then released. -/
theorem permInv_eq (s : State) :
    permInv s =
      { s with dst := writeSeq (elements s) id
                 (fun k => srcRead s (pixelAddr (entry (drawPermutation s.key (pixels s)).1 (k / 3)) (k % 3))) s.dst
               S := (drawPermutation s.key (pixels s)).2
               P := Config.freeP (s.tables + 1)
               tables := s.tables + 1 } := by
  rw [permInv, gatherPixels_eq]
  rfl

/-! ## The modular adder -/

theorem mapElements_eq (f : Nat → Nat → Byte → Byte) (s : State) :
    mapElements f s =
      { s with dst := writeSeq (elements s) id
                 (fun k => f (k / 3 / s.cols.toNat) (k / 3 % s.cols.toNat) (srcRead s k)) s.dst } := by
  rcases Nat.eq_zero_or_pos s.cols.toNat with hc | hc
  · have he : elements s = 0 := by simp only [elements, pixels, hc, Nat.mul_zero]
    have hz : ∀ n, loopUp n (fun (_ : Nat) (x : State) => x) s = s := by
      intro n
      induction n with
      | zero => rfl
      | succ n ih => exact ih
    rw [he, mapElements, hc]
    exact hz s.rows.toNat
  · let body := fun r c ch (z : State) =>
      dstWrite (addr s.cols.toNat r c ch) (f r c (srcRead z (addr s.cols.toNat r c ch))) z
    have h1 : mapElements f s = loopUp s.rows.toNat (fun r => loopUp s.cols.toNat fun c => loopUp channels (body r c)) s := rfl
    have h2 := loopUp_nest hc s.rows.toNat (fun r c => loopUp channels (body r c)) s
    have h3 := loopUp_nest (m := channels) (by decide) (s.cols.toNat * s.rows.toNat)
      (fun p => body (p / s.cols.toNat) (p % s.cols.toNat)) s
    have ha : ∀ k, addr s.cols.toNat (k / 3 / s.cols.toNat) (k / 3 % s.cols.toNat) (k % 3) = k := by
      intro k
      rw [addr, pix, Nat.div_add_mod', pixelAddr_div_mod]
    have he : channels * (s.cols.toNat * s.rows.toNat) = elements s := by
      rw [elements, pixels, Nat.mul_comm s.cols.toNat]
    rw [h1, h2, h3, he]
    refine (loopUp_congr (g := fun k x => dstWrite k (f (k / 3 / s.cols.toNat) (k / 3 % s.cols.toNat) (srcRead x k)) x)
      (fun k y _ => ?_) s).trans (loopUp_dstWrite_of (addr := fun k _ => k)
        (val := fun k x => f (k / 3 / s.cols.toNat) (k / 3 % s.cols.toNat) (srcRead x k)) s
        (fun _ _ _ => rfl) fun _ _ _ => rfl)
    show dstWrite (addr s.cols.toNat (k / 3 / s.cols.toNat) (k / 3 % s.cols.toNat) (k % 3)) _ y = _
    simp only [channels, ha]

/-! ## The channel rotator -/

/-- Storing a pixel's three elements is a loop over its channels. -/
theorem putPixel_eq_loop (p : Nat) (x0 x1 x2 : Byte) (s : State) :
    putPixel p x0 x1 x2 s = loopUp 3 (fun ch => dstWrite (pixelAddr p ch) ([x0, x1, x2].getD ch 0)) s := rfl

/-- A loop that gives each pixel the SRC elements of the same pixel at the channels `rot ch`. -/
theorem rotatePixels_eq {rot : Nat → Nat} {body : Nat → State → State}
    (hb : ∀ p x, body p x = loopUp 3 (fun ch y => dstWrite (pixelAddr p ch) (srcRead y (pixelAddr p (rot ch))) y) x)
    (s : State) :
    loopUp (pixels s) body s =
      { s with dst := writeSeq (elements s) id (fun k => srcRead s (pixelAddr (k / 3) (rot (k % 3)))) s.dst } := by
  have h := loopUp_nest (m := 3) (by decide) (pixels s)
    (fun p ch y => dstWrite (pixelAddr p ch) (srcRead y (pixelAddr p (rot ch))) y) s
  rw [loopUp_congr (fun p x _ => hb p x) s, h]
  refine (loopUp_dstWrite_of (addr := fun k _ => pixelAddr (k / 3) (k % 3))
    (val := fun k x => srcRead x (pixelAddr (k / 3) (rot (k % 3)))) s (fun _ _ _ => rfl) fun _ _ _ => rfl).trans ?_
  simp only [pixelAddr_div_mod]
  rfl

/-- `DST[3p + ch] = SRC[3p + ((ch + 2) mod 3)]` (R129's one line). -/
theorem chanFwd_eq (s : State) :
    chanFwd s =
      { s with dst := writeSeq (elements s) id (fun k => srcRead s (pixelAddr (k / 3) ((k % 3 + 2) % 3))) s.dst } :=
  rotatePixels_eq (rot := fun ch => (ch + 2) % 3) (fun _ _ => rfl) s

/-- `DST[3p + ch] = SRC[3p + ((ch + 1) mod 3)]` (R130's one line). -/
theorem chanInv_eq (s : State) :
    chanInv s =
      { s with dst := writeSeq (elements s) id (fun k => srcRead s (pixelAddr (k / 3) ((k % 3 + 1) % 3))) s.dst } :=
  rotatePixels_eq (rot := fun ch => (ch + 1) % 3) (fun _ _ => rfl) s

/-! ## Every transform at once -/

/-- The transform that the dispatcher selects for a command (R138). -/
def transformOf : Instr → State → State
  | .xorEnc | .xorDec => maskXor
  | .swapEnc => permFwd
  | .swapDec => permInv
  | .mathEnc => modFwd
  | .mathDec => modInv
  | .channelEnc => chanFwd
  | .channelDec => chanInv

theorem exec_eq_runCommand (i : Instr) (s : State) : exec i s = runCommand (transformOf i) s := by
  cases i <;> rfl

/-- A transform changes DST, `S`, `P` and the model's counter `tables` and nothing else. -/
theorem transformOf_frame (i : Instr) (s : State) :
    ∃ m S P n, transformOf i s = { s with dst := m, S := S, P := P, tables := n } := by
  cases i with
  | xorEnc => exact ⟨_, _, _, _, maskXor_eq s⟩
  | xorDec => exact ⟨_, _, _, _, maskXor_eq s⟩
  | swapEnc => exact ⟨_, _, _, _, permFwd_eq s⟩
  | swapDec => exact ⟨_, _, _, _, permInv_eq s⟩
  | mathEnc => exact ⟨_, _, _, _, mapElements_eq _ s⟩
  | mathDec => exact ⟨_, _, _, _, mapElements_eq _ s⟩
  | channelEnc => exact ⟨_, _, _, _, chanFwd_eq s⟩
  | channelDec => exact ⟨_, _, _, _, chanInv_eq s⟩

end Sys2Proof.Machine
end

