-- ==== Sys2Proof/Laws/Actions.lean ====
section
/-! SUPPORT. What a host action and a step can do, said once: the cases of an illegal word, a legal one, an access to an
element, and the inversion of a step that answers a next state. -/

namespace Sys2Proof.Machine

theorem execute_illegal {w : Word} {why : Illegal} (h : decode w = .illegal why) (s : State) :
    execute w s = .next (raise .unknownMethod s) := by
  rw [execute, h]
  rfl

theorem execute_command {w : Word} {i : Instr} (h : decode w = .command i) (s : State) : execute w s = exec i s := by
  rw [execute, h]

theorem atElement_of_lt {a : Nat} (h : a < Config.bufCapacity) (t : State) : atElement a t = .next t := if_pos h

theorem atElement_of_le {a : Nat} (h : Config.bufCapacity ≤ a) (t : State) :
    atElement a t = .fault .noSuchElement := if_neg (by omega)

theorem step_idle {s : State} (h : s.pending = []) : step s = .next s := by
  rw [step, nextAction, h]

theorem step_action {s : State} {act : HostAction} {rest : List HostAction} (h : s.pending = act :: rest) :
    step s = perform act { s with pending := rest } := by
  rw [step, nextAction, h]

/-- Everything a host action can do when it answers a next state. -/
theorem perform_cases {act : HostAction} {s t : State} (h : perform act s = .next t) :
    (∃ n w, act = .writeReg n w ∧ n ≠ 4 ∧ t = regWrite n w s) ∨
    (∃ w, act = .writeReg 4 w ∧ execute w { s with cmd := w } = .next t) ∨
    (∃ n, act = .readReg n ∧ t = reply (.word (regRead n s)) s) ∨
    (∃ a v, act = .writeSrc a v ∧ a < Config.bufCapacity ∧ t = srcWrite a v s) ∨
    (∃ a, act = .readSrc a ∧ a < Config.bufCapacity ∧ t = reply (.element (srcRead s a)) s) ∨
    (∃ a v, act = .writeDst a v ∧ a < Config.bufCapacity ∧ t = dstWrite a v s) ∨
    (∃ a, act = .readDst a ∧ a < Config.bufCapacity ∧ t = reply (.element (dstRead s a)) s) ∨
    (act = .reset ∧ t = resetAction s) := by
  have elem : ∀ {a : Nat} {u : State}, atElement a u = .next t → a < Config.bufCapacity ∧ t = u := by
    intro a u hu
    by_cases ha : a < Config.bufCapacity
    · rw [atElement_of_lt ha] at hu
      cases hu
      exact ⟨ha, rfl⟩
    · rw [atElement_of_le (by omega)] at hu
      cases hu
  cases act with
  | writeReg n w =>
    by_cases hn : n = 4
    · subst hn
      exact .inr (.inl ⟨w, rfl, h⟩)
    · simp only [perform, writeReg, if_neg hn] at h
      cases h
      exact .inl ⟨n, w, rfl, hn, rfl⟩
  | readReg n => cases h; exact .inr (.inr (.inl ⟨n, rfl, rfl⟩))
  | writeSrc a v => exact .inr (.inr (.inr (.inl ⟨a, v, rfl, elem h⟩)))
  | readSrc a => exact .inr (.inr (.inr (.inr (.inl ⟨a, rfl, elem h⟩))))
  | writeDst a v => exact .inr (.inr (.inr (.inr (.inr (.inl ⟨a, v, rfl, elem h⟩)))))
  | readDst a => exact .inr (.inr (.inr (.inr (.inr (.inr (.inl ⟨a, rfl, elem h⟩))))))
  | reset => cases h; exact .inr (.inr (.inr (.inr (.inr (.inr (.inr ⟨rfl, rfl⟩))))))

/-- Everything a step can do when it answers a next state: idle, or one host action. -/
theorem step_cases {s t : State} (h : step s = .next t) :
    (s.pending = [] ∧ t = s) ∨
    (∃ act rest, s.pending = act :: rest ∧ perform act { s with pending := rest } = .next t) := by
  cases hp : s.pending with
  | nil =>
    rw [step_idle hp] at h
    cases h
    exact .inl ⟨rfl, rfl⟩
  | cons act rest =>
    rw [step_action hp] at h
    exact .inr ⟨act, rest, rfl, h⟩

/-- A word placed for the next fetch is the next write to CMD, and nothing else changes. -/
theorem withFetchWord_eq (s : State) (nbits w : Nat) :
    s.withFetchWord nbits w =
      { s with pending := .writeReg 4 (BitVec.ofNat 32 (tableWord nbits w)) :: s.pending } := rfl

end Sys2Proof.Machine
end

