-- ==== Sys2Proof/Laws/PerInstr.lean ====
section
/-! SUPPORT. The family `RoundTrip`: the decoder gives back each command from the encoder's word. -/

namespace Sys2Proof.Laws.RoundTrip

/-- The word of a command decodes to that command. -/
def Statement (i : Instr) : Prop := decode (encode i) = .command i

theorem xorEnc : Statement .xorEnc := rfl
theorem xorDec : Statement .xorDec := rfl
theorem swapEnc : Statement .swapEnc := rfl
theorem swapDec : Statement .swapDec := rfl
theorem mathEnc : Statement .mathEnc := rfl
theorem mathDec : Statement .mathDec := rfl
theorem channelEnc : Statement .channelEnc := rfl
theorem channelDec : Statement .channelDec := rfl

end Sys2Proof.Laws.RoundTrip
end

