-- ==== Sys2Proof/Tests/Slice0.lean ====
section
/-! SUPPORT. The model's own tests. Expected values are the spec's: 95_test_vectors.md (V and P numbers), the rules' examples,
or the encoding tables of 30_encoding.md. The last section gives, for every statement with hypotheses, a concrete state that
meets them. -/

namespace Sys2Proof.Tests

open Sys2Proof Sys2Proof.Machine

/-! ## Helpers -/

/-- A memory that lists these bytes from address 0 on. -/
def cells (l : List Byte) : Memory := (List.range l.length).map fun a => (a, l.getD a 0)

/-- A state with these operands; everything else as after reset. -/
def operands (key : Word) (rows cols : BitVec 16) (chans : BitVec 8) (src : List Byte) : State :=
  { State.reset with key := key, rows := rows, cols := cols, chans := chans, src := cells src }

/-- The state with one host action to come. -/
def doing (act : HostAction) (s : State) : State := { s with pending := [act] }

/-- The next state of an outcome; the reset state where it is a stop. -/
def nextOf : Host.Outcome State Fault Refusal → State
  | .next t => t
  | _ => State.reset

def isNext : Host.Outcome State Fault Refusal → Bool
  | .next _ => true
  | _ => false

def isMissing : Host.Outcome State Fault Refusal → Bool
  | .fault .noSuchElement => true
  | _ => false

/-- The bytes that DST lists, in address order. -/
def result (i : Instr) (s : State) : List Byte := (nextOf (exec i s)).dst.map (·.2)

/-- `B` of 95_test_vectors.md. -/
def bufB : List Byte := [10, 20, 30, 40, 50, 60, 70, 80, 90, 100, 110, 120]

/-- `W` of 95_test_vectors.md section 2.5. -/
def bufW : List Byte := [250, 0, 255, 1, 128, 127, 200, 100, 50, 13, 26, 39]

/-- `B6` of 95_test_vectors.md section 2.6. -/
def bufB6 : List Byte := [1, 2, 3, 4, 5, 6, 7, 8, 9, 10, 11, 12, 13, 14, 15, 16, 17, 18]

/-- Key 5, 2 by 2 by 3, `B` in SRC. -/
def st5 : State := operands 5 2 2 3 bufB

/-- The host's hand-over: the result becomes the next command's source (R143). -/
def handOver (t : State) : State := { t with src := t.dst }

/-! ## WellFormed: each check refuses an ill-formed term -/

theorem test_writeSrc_outside_ill_formed : (HostAction.writeSrc 12884508675 0).wellFormed = false := by decide
theorem test_readSrc_outside_ill_formed : (HostAction.readSrc 12884508675).wellFormed = false := by decide
theorem test_writeDst_outside_ill_formed : (HostAction.writeDst 12884508675 0).wellFormed = false := by decide
theorem test_readDst_outside_ill_formed : (HostAction.readDst 12884508676).wellFormed = false := by decide
theorem test_last_element_well_formed : (HostAction.writeSrc 12884508674 0).wellFormed = true := by decide
theorem test_command_well_formed : Instr.wellFormed .channelDec = true := by decide

/-! ## Decoding: words written out from R62 to R64; V1 to V14 -/

theorem test_decode_xorEnc : decode 0b00000000000000000000000000000000 = .command .xorEnc := by decide
theorem test_decode_xorDec : decode 0b00000000000000000000000000001000 = .command .xorDec := by decide
theorem test_decode_swapEnc : decode 0b00000000000000000000000000000001 = .command .swapEnc := by decide
theorem test_decode_swapDec : decode 0b00000000000000000000000000001001 = .command .swapDec := by decide
theorem test_decode_mathEnc : decode 0b00000000000000000000000000000010 = .command .mathEnc := by decide
theorem test_decode_mathDec : decode 0b00000000000000000000000000001010 = .command .mathDec := by decide
theorem test_decode_channelEnc : decode 0b00000000000000000000000000000011 = .command .channelEnc := by decide
theorem test_decode_channelDec : decode 0b00000000000000000000000000001011 = .command .channelDec := by decide
theorem test_decode_method_4_to_7 :
    [0x4, 0x5, 0x6, 0x7, 0xC, 0xD, 0xE, 0xF].map decode = List.replicate 8 (.illegal .unrecognisedMethod) := by decide
theorem test_decode_reserved_bits :
    [0x00000010, 0x80000002, 0xFFFFFFFF].map decode = List.replicate 3 (.illegal .reservedBitSet) := by decide
theorem test_encode_mathDec : encode .mathDec = 0x0000000A := by decide
theorem test_decodeTableWord : decodeTableWord 32 9 = some .swapDec := by decide
theorem test_decodeTableWord_illegal : decodeTableWord 32 0x12 = none := by decide
theorem test_assemble_unknown_method : assemble "foo" "encrypt" = some 0x00000007 := by decide
theorem test_assemble_wrong_case : assemble "Math" "decrypt" = some 0x0000000F := by decide
theorem test_assemble_math_decrypt : assemble "math" "decrypt" = some 0x0000000A := by decide
theorem test_assemble_unknown_direction : assemble "math" "sideways" = none := by decide

/-! ## The generator: R95, V20 to V38 -/

theorem test_draws_key_42 : (List.range 6).map (fun n => stateAfter (seed 42) (n + 1)) =
    [0x4099B181, 0x168F5CEC, 0x93C8B35B, 0x38F950FE, 0x602B4445, 0x0691E8E0] := by decide
theorem test_drawMask_key_minus_1 : drawMask (seed 0xFFFFFFFF) 2 2 =
    ([60, 48, 34, 161, 183, 223, 233, 185, 255, 134, 87, 13], 0x0D813FAB) := by decide
theorem test_drawBelow_draws : (belowOfDraw 0xFFFFFFFF 2, belowOfDraw 0x7FFFFFFF 2, belowOfDraw 0xBB69F87F 3) = (1, 0, 2) := by
  decide
theorem test_drawPermutation_8 : drawPermutation (seed 1) 8 = ([4, 6, 7, 0, 5, 3, 2, 1], 0xC656DD92) := by decide
theorem test_drawPermutation_3 : drawPermutation (seed 7) 3 = ([2, 1, 0], 0xE9DAB1D1) := by decide

/-! ## The transforms -/

/-- V44. -/
theorem test_xorEnc_result : result .xorEnc st5 = [54, 175, 32, 242, 133, 96, 57, 104, 87, 186, 126, 81] := by decide
/-- R102: `S` after the command. -/
theorem test_xorEnc_S : (nextOf (exec .xorEnc st5)).S = 0x296059D1 := by decide
/-- V45. -/
theorem test_xorDec_result :
    result .xorDec (operands 5 2 2 3 [54, 175, 32, 242, 133, 96, 57, 104, 87, 186, 126, 81]) = bufB := by decide
/-- V49: an empty buffer completes, seeds and writes nothing. -/
theorem test_xorDec_empty : (nextOf (exec .xorDec (operands 5 0 7 3 []))).S = 5 := by decide
/-- V98. -/
theorem test_swapEnc_result : result .swapEnc (operands 42 2 3 3 bufB6) =
    [13, 14, 15, 16, 17, 18, 10, 11, 12, 4, 5, 6, 7, 8, 9, 1, 2, 3] := by decide
/-- V101: one pixel makes no draw. -/
theorem test_swapEnc_one_pixel : (nextOf (exec .swapEnc (operands 5 1 1 3 [1, 2, 3]))).S = 5 := by decide
/-- V92: not the forward direction. -/
theorem test_swapDec_result : result .swapDec st5 = [40, 50, 60, 100, 110, 120, 70, 80, 90, 10, 20, 30] := by decide
/-- V37, V100: the table the command works with. -/
theorem test_buildTable_P : (buildTable (operands 42 2 3 3 bufB6)).P = [5, 3, 4, 2, 0, 1] := by decide
/-- R31: a completed swap command leaves `P` unspecified; the counter of the free value advances once. -/
theorem test_swapDec_releases_table : (nextOf (exec .swapDec st5)).tables = 1 := by decide
/-- V72: both sums wrap. -/
theorem test_mathEnc_wraps : result .mathEnc (operands 7 2 2 3 bufW) =
    [1, 7, 6, 21, 148, 147, 220, 120, 70, 46, 59, 72] := by decide
/-- V74: a negative key. -/
theorem test_mathEnc_negative_key : result .mathEnc (operands 0xFFFFFFFF 2 2 3 bufB) =
    [9, 19, 29, 52, 62, 72, 82, 92, 102, 125, 135, 145] := by decide
/-- V73: negative intermediate values are wrapped, not truncated. -/
theorem test_mathDec_wraps : result .mathDec (operands 7 2 2 3 bufW) =
    [243, 249, 248, 237, 108, 107, 180, 80, 30, 236, 249, 6] := by decide
/-- V75: a negative key. -/
theorem test_mathDec_negative_key : result .mathDec (operands 0xFFFFFFFF 2 2 3 bufB) =
    [11, 21, 31, 28, 38, 48, 58, 68, 78, 75, 85, 95] := by decide
/-- V52. -/
theorem test_channelEnc_result : result .channelEnc st5 = [30, 10, 20, 60, 40, 50, 90, 70, 80, 120, 100, 110] := by decide
/-- V50, the source's own example. -/
theorem test_channelEnc_source_example : result .channelEnc (operands 0 1 1 3 [1, 2, 3]) = [3, 1, 2] := by decide
/-- V53. -/
theorem test_channelDec_result : result .channelDec st5 = [20, 30, 10, 50, 60, 40, 80, 90, 70, 110, 120, 100] := by decide
/-- V51, the source's own example. -/
theorem test_channelDec_source_example : result .channelDec (operands 0 1 1 3 [3, 1, 2]) = [1, 2, 3] := by decide

/-! ## Dispatcher, faults, host actions: V60 to V69d -/

/-- V67. -/
theorem test_status_completed : (nextOf (step (doing (.writeReg 4 0x2) st5))).status = 0x00000002 := by decide
/-- V60. -/
theorem test_bad_channel_count :
    (nextOf (step (doing (.writeReg 4 0x2) (operands 5 2 2 1 bufB)))).status = 0x00000206 := by decide
/-- V65: the method check comes first. -/
theorem test_unknown_method_first :
    (nextOf (step (doing (.writeReg 4 0x7) (operands 5 2 2 4 bufB)))).status = 0x00000106 := by decide
/-- V66 and R139: CMD keeps the offending word. -/
theorem test_reserved_bit_cmd : (nextOf (step (doing (.writeReg 4 0x12) st5))).cmd = 0x12 := by decide
/-- V69a. -/
theorem test_write_chans_drops_reserved : (nextOf (step (doing (.writeReg 3 0x00000103) st5))).chans = 3 := by decide
/-- V69b. -/
theorem test_write_rows_drops_reserved : (nextOf (step (doing (.writeReg 1 0x00010002) st5))).rows = 2 := by decide
/-- V69c. -/
theorem test_write_status_ignored : (nextOf (step (doing (.writeReg 5 0xFFFFFFFF) st5))).status = 0 := by decide
/-- R26: a register that does not exist reads 0. -/
theorem test_read_missing_register : (nextOf (step (doing (.readReg 6) st5))).replies = [.word 0] := by decide
/-- V69d: `Reset` clears STATUS and CMD. -/
theorem test_reset_action :
    ((nextOf (step (doing .reset { st5 with status := 0x106, cmd := 7 }))).status,
      (nextOf (step (doing .reset { st5 with status := 0x106, cmd := 7 }))).cmd) = (0, 0) := by decide
/-- R142: a buffer access outside the address space is none of the spec's host actions. -/
theorem test_read_outside : isMissing (step (doing (.readDst 12884508675) st5)) = true := by decide
/-- A word placed by `withFetchWord` is the next step's command, after reset too. -/
theorem test_withFetchWord : (nextOf (step (State.reset.withFetchWord 32 0xB))).cmd = 0xB := by decide
theorem test_withFetchWord_runs : (nextOf (step (st5.withFetchWord 32 3))).dst = (nextOf (exec .channelEnc st5)).dst := by
  decide
/-- R69: the key line writes the two's complement pattern; a key outside the range does not reach the engine. -/
theorem test_script_key : scriptActions st5 (.key (-1)) = some [.writeReg 0 0xFFFFFFFF] := by decide
theorem test_script_key_out_of_range : scriptActions st5 (.key 2147483648) = none := by decide

/-! ## Witnesses: a state and operands that meet each statement's hypotheses, clause by clause -/

/-- The state after one command on `st5`, with the result handed over as the next source. -/
def afterThen (i : Instr) : State := handOver (nextOf (exec i st5))

theorem witness_DecodeFollowsTheFields_reserved : (0x10 : Word).toNat / 16 ≠ 0 := by decide
theorem witness_DecodeFollowsTheFields_method : 4 ≤ (0xF : Word).toNat % 8 := by decide
theorem witness_DecodeFollowsTheFields_legal : (0xB : Word).toNat / 16 = 0 ∧ (0xB : Word).toNat % 8 < 4 := by decide
theorem witness_DecodeAndEncodeAgree : Instr.wellFormed .swapDec = true := by decide
theorem witness_AssemblerWords_known : (("channel", 3) : String × Nat) ∈ [("xor", 0), ("swap", 1), ("math", 2), ("channel", 3)] := by
  decide
theorem witness_AssemblerWords_unknown :
    "foo" ∉ ["xor", "swap", "math", "channel"] ∧ "foo" ∉ ["encrypt", "decrypt"] := by decide
theorem witness_ElementAddresses_last : 1 < st5.rows.toNat ∧ 1 < st5.cols.toNat ∧ (2 : Nat) < 3 ∧ 3 < pixels st5 := by decide
theorem witness_DrawBelowIsInRange : (1 : Nat) ≤ 4294967295 ∧ (4294967295 : Nat) ≤ 4294967295 := by decide
theorem witness_MaskFollowsTheDrawOrder : 11 < 3 * 2 * 2 := by decide
theorem witness_ShuffleFollowsTheDrawOrder :
    4294836225 ≤ 4294836225 ∧ 0 < 4294836225 ∧ 0 < (identityTable 2).length ∧ 1 < (identityTable 2).length := by decide
theorem witness_TableIsAPermutation : 4294836225 ≤ 4294836225 ∧ 0 ≤ 4294836225 := by decide
theorem witness_CombineIsBitwiseXor : (7 : Nat) < 8 := by decide
theorem witness_completion : st5.chans = 3 ∧ 11 < 3 * pixels st5 ∧ 3 < pixels st5 := by decide
theorem witness_completion_wrong_count : (operands 5 2 2 4 bufB).chans ≠ 3 ∧ (operands 5 2 2 2 bufB).chans ≠ 3 := by decide
theorem witness_math_position : 1 < st5.rows.toNat ∧ 1 < st5.cols.toNat ∧ (2 : Nat) < 3 := by decide
theorem witness_ChannelRotationHasOrderThree :
    st5.chans = 3 ∧ isNext (exec .channelEnc st5) = true ∧ (afterThen .channelEnc).chans = 3 ∧
      pixels (afterThen .channelEnc) = pixels st5 ∧
      ∀ a, a < 12 → srcRead (afterThen .channelEnc) a = dstRead (nextOf (exec .channelEnc st5)) a := by decide
theorem witness_XorRoundTrip :
    st5.chans = 3 ∧ isNext (exec .xorEnc st5) = true ∧ (afterThen .xorEnc).chans = 3 ∧ (afterThen .xorEnc).key = st5.key ∧
      ∀ a, a < 12 → srcRead (afterThen .xorEnc) a = dstRead (nextOf (exec .xorEnc st5)) a := by decide
theorem witness_SwapRoundTrip :
    st5.chans = 3 ∧ isNext (exec .swapEnc st5) = true ∧ (afterThen .swapEnc).chans = 3 ∧
      (afterThen .swapEnc).key = st5.key ∧ pixels (afterThen .swapEnc) = pixels st5 ∧
      ∀ a, a < 12 → srcRead (afterThen .swapEnc) a = dstRead (nextOf (exec .swapEnc st5)) a := by decide
/-- V80: a key that agrees in its low byte only. -/
theorem witness_MathRoundTrip :
    st5.chans = 3 ∧ isNext (exec .mathEnc st5) = true ∧
      ({ afterThen .mathEnc with key := 261 } : State).key.setWidth 8 = st5.key.setWidth 8 ∧
      (afterThen .mathEnc).chans = 3 ∧ (afterThen .mathEnc).cols = st5.cols ∧
      ∀ a, a < 12 → srcRead (afterThen .mathEnc) a = dstRead (nextOf (exec .mathEnc st5)) a := by decide
theorem witness_ChannelRoundTrip :
    st5.chans = 3 ∧ isNext (exec .channelDec st5) = true ∧ (afterThen .channelDec).chans = 3 ∧
      ∀ a, a < 12 → srcRead (afterThen .channelDec) a = dstRead (nextOf (exec .channelDec st5)) a := by decide

/-- The generator of `witness_RoundTripForEveryConformingGenerator`: an all-zero mask and the identity ordering. -/
theorem identity_meets_prngContract :
    prngContract (fun _ rows cols => List.replicate (channels * (rows * cols)) 0) (fun _ n => identityTable n) := by
  refine ⟨fun _ _ _ => List.length_replicate, fun _ n hn => ?_⟩
  have h : (identityTable n).map BitVec.toNat = List.range n := by
    rw [identityTable, List.map_map]
    refine (List.map_congr_left fun i hi => ?_).trans (List.map_id _)
    have := List.mem_range.mp hi
    simp only [Function.comp_apply, BitVec.toNat_ofNat, id_eq]
    exact Nat.mod_eq_of_lt (by omega)
  rw [isPermutation, h]

theorem witness_RoundTripForEveryConformingGenerator :
    prngContract (fun _ rows cols => List.replicate (channels * (rows * cols)) 0) (fun _ n => identityTable n) ∧
    (handOver (maskWith (List.replicate 12 0) st5)).rows = st5.rows ∧
    (handOver (maskWith (List.replicate 12 0) st5)).cols = st5.cols ∧
    (∀ a, a < 12 → srcRead (handOver (maskWith (List.replicate 12 0) st5)) a =
      dstRead (maskWith (List.replicate 12 0) st5) a) ∧
    (∀ a, a < 12 → srcRead (handOver (scatterPixels { st5 with P := identityTable 4 })) a =
      dstRead (scatterPixels { st5 with P := identityTable 4 }) a) ∧
    (∀ a, a < 12 → srcRead (handOver (gatherPixels { st5 with P := identityTable 4 })) a =
      dstRead (gatherPixels { st5 with P := identityTable 4 }) a) :=
  ⟨identity_meets_prngContract, by decide, by decide, by decide, by decide, by decide⟩

/-- V96: 1 by 4 and 4 by 1 have the same pixel count. -/
theorem witness_XorAndSwapDependOnKeyAndPixelCount :
    (operands 5 4 1 3 bufB).key = (operands 5 1 4 3 bufB).key ∧ (operands 5 4 1 3 bufB).chans = 3 ∧
      (operands 5 1 4 3 bufB).chans = 3 ∧ pixels (operands 5 4 1 3 bufB) = pixels (operands 5 1 4 3 bufB) ∧
      ∀ a, a < 12 → srcRead (operands 5 4 1 3 bufB) a = srcRead (operands 5 1 4 3 bufB) a := by decide
/-- V76: keys 300 and 44 share their low byte. -/
theorem witness_MathDependsOnLowKeyByteAndShape :
    (operands 300 2 2 3 bufB).key.setWidth 8 = (operands 44 2 2 3 bufB).key.setWidth 8 ∧
      (operands 300 2 2 3 bufB).chans = 3 ∧ (operands 44 2 2 3 bufB).chans = 3 ∧
      ∀ a, a < 12 → srcRead (operands 300 2 2 3 bufB) a = srcRead (operands 44 2 2 3 bufB) a := by decide
/-- V56: keys 0 and 0x7FFFFFFF. -/
theorem witness_ChannelIgnoresTheKey :
    (operands 0 2 2 3 bufB).chans = 3 ∧ (operands 0x7FFFFFFF 2 2 3 bufB).chans = 3 ∧
      pixels (operands 0 2 2 3 bufB) = pixels (operands 0x7FFFFFFF 2 2 3 bufB) ∧
      ∀ a, a < 12 → srcRead (operands 0 2 2 3 bufB) a = srcRead (operands 0x7FFFFFFF 2 2 3 bufB) a := by decide
theorem witness_IllegalWordRaisesUnknownMethod :
    (doing (.writeReg 4 0x10) st5).pending = [.writeReg 4 0x10] ∧
      (0x10 : Word) ∉ [0x0, 0x1, 0x2, 0x3, 0x8, 0x9, 0xA, 0xB] ∧ (0xC : Word) ∉ [0x0, 0x1, 0x2, 0x3, 0x8, 0x9, 0xA, 0xB] := by
  decide
theorem witness_WrongChannelCountFaults :
    (doing (.writeReg 4 0xB) (operands 5 2 2 255 bufB)).pending = [.writeReg 4 0xB] ∧
      (0xB : Word) ∈ [0x0, 0x1, 0x2, 0x3, 0x8, 0x9, 0xA, 0xB] ∧ (operands 5 2 2 255 bufB).chans ≠ 3 := by decide
theorem witness_StepRunsTheDecodedCommand :
    (doing (.writeReg 4 0xA) st5).pending = [.writeReg 4 0xA] ∧ decode 0xA = .command .mathDec ∧
      decode 0xE = .illegal .unrecognisedMethod := by decide
theorem witness_RegisterWrites_boundaries :
    (doing (.writeReg 0 1) st5).pending = [.writeReg 0 1] ∧ (doing (.writeReg 5 1) st5).pending = [.writeReg 5 1] ∧
      (doing (.writeReg 6 1) st5).pending = [.writeReg 6 1] := by decide
theorem witness_RegisterReads_boundaries :
    (doing (.readReg 5) st5).pending = [.readReg 5] ∧ (doing (.readReg 6) st5).pending = [.readReg 6] := by decide
theorem witness_BufferWrites_last :
    12884508674 < 12884508675 ∧ (doing (.writeSrc 12884508674 7) st5).pending = [.writeSrc 12884508674 7] ∧
      (doing (.writeDst 12884508674 7) st5).pending = [.writeDst 12884508674 7] := by decide
theorem witness_BufferReads_last :
    12884508674 < 12884508675 ∧ (doing (.readSrc 12884508674) st5).pending = [.readSrc 12884508674] ∧
      (doing (.readDst 0) st5).pending = [.readDst 0] := by decide
theorem witness_ResetActionFreesTheState : (doing .reset st5).pending = [.reset] := by decide
theorem witness_StepKeepsTheInvariant :
    st5.src.wf ∧ st5.dst.wf ∧ st5.src.inRange ∧ st5.dst.inRange ∧ st5.status = 0 ∧
      isNext (step (doing (.writeReg 4 0x1) st5)) = true := by decide
theorem witness_HiddenStateIsNeverObserved :
    isNext (Host.Core.run Sys2Proof.core 1 (doing (.writeReg 4 0x1) st5)) = true ∧
      isMissing (Host.Core.run Sys2Proof.core 1 (doing (.readSrc 12884508675) st5)) = true := by decide
theorem witness_OnlyCommandsAndResetChangeStatus :
    (doing (.writeSrc 12884508674 9) st5).pending = [.writeSrc 12884508674 9] ∧
      (HostAction.writeSrc 12884508674 9).wellFormed = true := by decide
theorem witness_CommandsLeaveOperandsAndSource :
    (doing (.writeReg 4 0xFFFFFFFF) st5).pending = [.writeReg 4 0xFFFFFFFF] := by decide

end Sys2Proof.Tests
end

/-! # Proofs of the family `10_state.md` -/

namespace Sys2Proof.Machine

/-! ## The generator: the mask's entries, the table is a permutation -/

/-- Entry `a` of the mask is the byte of draw `a + 1` (R86). -/
theorem drawBytes_getElem? {n a : Nat} (h : a < n) (S : Word) :
    (drawBytes n S).1[a]? = some (byteOfDraw (stateAfter S (a + 1))) := by
  induction n generalizing a S with
  | zero => omega
  | succ n ih =>
    cases a with
    | zero => rfl
    | succ a =>
      calc (drawBytes (n + 1) S).1[a + 1]?
          = (drawBytes n (lcgNext S)).1[a]? := rfl
        _ = some (byteOfDraw (stateAfter (lcgNext S) (a + 1))) := ih (by omega) _
        _ = some (byteOfDraw (stateAfter S (a + 1 + 1))) := by rw [stateAfter_next]

/-- A draw below `n` is below `n` (R85). -/
theorem belowOfDraw_lt (u : Word) {n : Nat} (hn : 0 < n) : belowOfDraw u n < n := by
  have hu := u.isLt
  rw [belowOfDraw, Nat.shiftRight_eq_div_pow]
  exact Nat.div_lt_of_lt_mul (Nat.mul_lt_mul_of_pos_right hu hn)

theorem swapEntries_perm {t : List Word} {i j : Nat} (hi : i < t.length) (hj : j < t.length) :
    (swapEntries t i j).Perm t := by
  rw [swapEntries, List.getD_eq_getElem t 0 hi, List.getD_eq_getElem t 0 hj]
  exact List.set_set_perm hi hj

/-- The shuffle only exchanges entries, as long as it starts inside the table (R88). -/
theorem shuffleFrom_perm (i : Nat) (t : List Word) (S : Word) (h : i ≤ t.length - 1) :
    (shuffleFrom i (t, S)).1.Perm t := by
  induction i generalizing t S with
  | zero => exact .refl t
  | succ i ih =>
    have hlt : belowOfDraw (lcgNext S) (i + 2) < i + 2 := belowOfDraw_lt _ (by omega)
    have hswap : (swapEntries t (i + 1) (belowOfDraw (lcgNext S) (i + 2))).Perm t :=
      swapEntries_perm (by omega) (by omega)
    exact (ih _ (lcgNext S) (by rw [swapEntries_length]; omega)).trans hswap

/-- `DrawPermutation(n)` yields a permutation of the pixel indices (R89). -/
theorem drawPermutation_isPermutation (S : Word) {n : Nat} (hn : n ≤ 2 ^ 32) :
    isPermutation (drawPermutation S n).1 n :=
  ((shuffleFrom_perm _ _ S (by rw [identityTable_length])).map BitVec.toNat).trans (identityTable_isPermutation hn)

/-! ## The transforms: where they write, and that they ignore the hidden state -/

/-- The slot of an element under the drawn table lies in the buffer. -/
theorem pixelAddr_entry_lt (s : State) {k : Nat} (hk : k < elements s) :
    pixelAddr (entry (drawPermutation s.key (pixels s)).1 (k / 3)) (k % 3) < elements s := by
  rw [elements_eq] at hk ⊢
  have hn := pixels_le s
  have he := entry_lt (drawPermutation_isPermutation s.key (by omega : pixels s ≤ 2 ^ 32))
    (by omega : k / 3 < pixels s)
  simp only [pixelAddr, channels]
  omega

/-- A transform makes one write per element of the buffer, each inside the buffer (R44, R46). -/
theorem transformOf_dst (i : Instr) (s : State) :
    ∃ addr val, (∀ k, k < elements s → addr k < elements s) ∧
      (transformOf i s).dst = writeSeq (elements s) addr val s.dst := by
  cases i with
  | xorEnc => exact ⟨id, _, fun _ hk => hk, congrArg State.dst (maskXor_eq s)⟩
  | xorDec => exact ⟨id, _, fun _ hk => hk, congrArg State.dst (maskXor_eq s)⟩
  | swapEnc => exact ⟨_, _, fun _ hk => pixelAddr_entry_lt s hk, congrArg State.dst (permFwd_eq s)⟩
  | swapDec => exact ⟨id, _, fun _ hk => hk, congrArg State.dst (permInv_eq s)⟩
  | mathEnc => exact ⟨id, _, fun _ hk => hk, congrArg State.dst (mapElements_eq _ s)⟩
  | mathDec => exact ⟨id, _, fun _ hk => hk, congrArg State.dst (mapElements_eq _ s)⟩
  | channelEnc => exact ⟨id, _, fun _ hk => hk, congrArg State.dst (chanFwd_eq s)⟩
  | channelDec => exact ⟨id, _, fun _ hk => hk, congrArg State.dst (chanInv_eq s)⟩

/-- Seeding and the table's draw come before their use, so what `S` and `P` held does not enter (R30, R31). -/
theorem transformOf_withHidden (i : Instr) (s : State) (S : Word) (P : List Word) :
    ∃ S' P', transformOf i (s.withHidden S P) = (transformOf i s).withHidden S' P' := by
  cases i with
  | xorEnc => simp only [transformOf, maskXor_eq]; exact ⟨_, _, rfl⟩
  | xorDec => simp only [transformOf, maskXor_eq]; exact ⟨_, _, rfl⟩
  | swapEnc => simp only [transformOf, permFwd_eq]; exact ⟨_, _, rfl⟩
  | swapDec => simp only [transformOf, permInv_eq]; exact ⟨_, _, rfl⟩
  | mathEnc => simp only [transformOf, modFwd, mapElements_eq]; exact ⟨_, _, rfl⟩
  | mathDec => simp only [transformOf, modInv, mapElements_eq]; exact ⟨_, _, rfl⟩
  | channelEnc => simp only [transformOf, chanFwd_eq]; exact ⟨_, _, rfl⟩
  | channelDec => simp only [transformOf, chanInv_eq]; exact ⟨_, _, rfl⟩

/-! ## What a command does, legal or not -/

/-- Everything a command that ends with the outcome `o` does to what the host can observe (R139, R154): the operands stay,
DST takes writes inside the buffer, STATUS tells the outcome. -/
structure CommandEffect (o : CommandOutcome) (s t : State) : Prop where
  operands : s.sameOperands t
  dst : ∃ n addr val, (∀ k, k < n → addr k < elements s) ∧ t.dst = writeSeq n addr val s.dst
  status : t.status = statusOfOutcome o
  outcomes : t.outcomes = o :: s.outcomes

theorem raise_eq_afterFault (c : Cause) (s : State) : raise c s = s.afterFault c := by
  cases c
  · rw [raise, statusRaise_unknownMethod]; rfl
  · rw [raise, statusRaise_badChannelCount]; rfl

theorem raise_effect (c : Cause) (s : State) : CommandEffect (.faulted c) s (raise c s) := by
  rw [raise_eq_afterFault]
  exact ⟨⟨rfl, rfl, rfl, rfl, rfl, rfl, rfl, rfl, rfl⟩, ⟨0, id, fun _ => 0, by omega, rfl⟩, rfl, rfl⟩

theorem complete_transformOf_effect (i : Instr) (s : State) :
    CommandEffect .completed s (complete (transformOf i (beginCommand s))) := by
  obtain ⟨addr, val, haddr, hdst⟩ := transformOf_dst i (beginCommand s)
  obtain ⟨m, S, P, n, ht⟩ := transformOf_frame i (beginCommand s)
  refine ⟨?_, ⟨_, addr, val, haddr, hdst⟩, ?_, ?_⟩ <;> rw [ht]
  · exact ⟨rfl, rfl, rfl, rfl, rfl, rfl, rfl, rfl, rfl⟩
  · exact statusComplete_start
  · rfl

theorem exec_of_three {s : State} (h : s.chans = 3) (i : Instr) :
    exec i s = .next (complete (transformOf i (beginCommand s))) := by
  rw [exec_eq_runCommand, runCommand_of_three h]

theorem exec_of_not_three {s : State} (h : s.chans ≠ 3) (i : Instr) :
    exec i s = .next (raise .badChannelCount s) := by
  rw [exec_eq_runCommand, runCommand_of_not_three h, raise_beginCommand]

theorem exec_effect (i : Instr) (s : State) : ∃ o t, exec i s = .next t ∧ CommandEffect o s t := by
  by_cases h : s.chans = 3
  · exact ⟨_, _, exec_of_three h i, complete_transformOf_effect i s⟩
  · exact ⟨_, _, exec_of_not_three h i, raise_effect _ s⟩

/-- Every word written to CMD ends in a next state, with the effect of a command. -/
theorem execute_effect (w : Word) (s : State) : ∃ o t, execute w s = .next t ∧ CommandEffect o s t := by
  cases h : decode w with
  | command i =>
    rw [execute_command h]
    exact exec_effect i s
  | illegal why => exact ⟨_, _, execute_illegal h s, raise_effect _ s⟩

section
variable {o : CommandOutcome} {s t : State}

theorem CommandEffect.dstKept (h : CommandEffect o s t) : s.dstKeptFrom t (elements s) := by
  obtain ⟨n, addr, val, haddr, hdst⟩ := h.dst
  obtain ⟨-, -, -, -, -, -, -, -, hresets⟩ := h.operands
  intro a ha
  have hread : t.dst.read a = s.dst.read a := by
    rw [hdst]
    exact writeSeq_read_outside (fun k hk => by have := haddr k hk; omega) val s.dst
  simp only [dstRead, hread, hresets]

theorem CommandEffect.dst_wf (h : CommandEffect o s t) (hs : s.dst.wf) : t.dst.wf := by
  obtain ⟨n, addr, val, -, hdst⟩ := h.dst
  rw [hdst]
  exact writeSeq_wf hs n addr val

theorem CommandEffect.dst_inRange (h : CommandEffect o s t) (hs : s.dst.inRange) : t.dst.inRange := by
  obtain ⟨n, addr, val, haddr, hdst⟩ := h.dst
  rw [hdst]
  exact writeSeq_inRange hs (fun k hk => (haddr k hk).trans_le (elements_le_capacity s)) val

theorem CommandEffect.statusLegal (h : CommandEffect o s t) : t.statusLegal :=
  .inr ⟨o, s.outcomes, h.outcomes, h.status⟩

theorem CommandEffect.inv (h : CommandEffect o s t) (hs : s.inv) : t.inv := by
  obtain ⟨hsrcWf, hdstWf, hsrcRange, hdstRange, -⟩ := hs
  obtain ⟨-, -, -, -, -, hsrc, -, -, -⟩ := h.operands
  exact ⟨hsrc ▸ hsrcWf, h.dst_wf hdstWf, hsrc ▸ hsrcRange, h.dst_inRange hdstRange, h.statusLegal⟩

end

/-! ## The host's actions -/

/-- A register write other than to CMD changes one of the four operand registers or nothing. -/
theorem regWrite_frame {n : Nat} (hn : n ≠ 4) (w : Word) (s : State) :
    ∃ k r c ch, regWrite n w s = { s with key := k, rows := r, cols := c, chans := ch } := by
  match n, hn with
  | 0, _ => exact ⟨_, _, _, _, regWrite_key w s⟩
  | 1, _ => exact ⟨_, _, _, _, regWrite_rows w s⟩
  | 2, _ => exact ⟨_, _, _, _, regWrite_cols w s⟩
  | 3, _ => exact ⟨_, _, _, _, regWrite_chans w s⟩
  | 5, _ => exact ⟨_, _, _, _, regWrite_status w s⟩
  | n + 6, _ => exact ⟨_, _, _, _, regWrite_missing (by omega) w s⟩

theorem perform_writeCmd (w : Word) (s : State) : perform (.writeReg 4 w) s = execute w { s with cmd := w } := rfl

theorem perform_writeReg {n : Nat} (hn : n ≠ 4) (w : Word) (s : State) :
    perform (.writeReg n w) s = .next (regWrite n w s) := if_neg hn

/-- A well-formed action ends in a next state. -/
theorem perform_next_of_wellFormed {act : HostAction} (h : act.wellFormed = true) (s : State) :
    ∃ t, perform act s = .next t := by
  cases act with
  | writeReg n w =>
    by_cases hn : n = 4
    · subst hn
      obtain ⟨-, t, ht, -⟩ := execute_effect w { s with cmd := w }
      exact ⟨t, ht⟩
    · exact ⟨_, perform_writeReg hn w s⟩
  | readReg n => exact ⟨_, rfl⟩
  | writeSrc a v => exact ⟨_, atElement_of_lt (of_decide_eq_true h) _⟩
  | readSrc a => exact ⟨_, atElement_of_lt (of_decide_eq_true h) _⟩
  | writeDst a v => exact ⟨_, atElement_of_lt (of_decide_eq_true h) _⟩
  | readDst a => exact ⟨_, atElement_of_lt (of_decide_eq_true h) _⟩
  | reset => exact ⟨_, rfl⟩

theorem step_next_of_wellFormed {s : State} (h : ∀ act rest, s.pending = act :: rest → act.wellFormed = true) :
    ∃ t, step s = .next t := by
  cases hp : s.pending with
  | nil => exact ⟨s, step_idle hp⟩
  | cons act rest =>
    rw [step_action hp]
    exact perform_next_of_wellFormed (h act rest hp) _

/-! ## The invariant -/

theorem resetAction_inv (s : State) : (resetAction s).inv :=
  ⟨Memory.nil_wf, Memory.nil_wf, Memory.nil_inRange, Memory.nil_inRange, .inl rfl⟩

theorem srcWrite_inv {a : Nat} (ha : a < Config.bufCapacity) (v : Byte) {s : State} (h : s.inv) :
    (srcWrite a v s).inv := by
  obtain ⟨hsrcWf, hdstWf, hsrcRange, hdstRange, hstatus⟩ := h
  exact ⟨Memory.write_wf hsrcWf a v, hdstWf, Memory.write_inRange hsrcRange ha v, hdstRange, hstatus⟩

theorem dstWrite_inv {a : Nat} (ha : a < Config.bufCapacity) (v : Byte) {s : State} (h : s.inv) :
    (dstWrite a v s).inv := by
  obtain ⟨hsrcWf, hdstWf, hsrcRange, hdstRange, hstatus⟩ := h
  exact ⟨hsrcWf, Memory.write_wf hdstWf a v, hsrcRange, Memory.write_inRange hdstRange ha v, hstatus⟩

theorem regWrite_inv {n : Nat} (hn : n ≠ 4) (w : Word) {s : State} (h : s.inv) : (regWrite n w s).inv := by
  obtain ⟨k, r, c, ch, hw⟩ := regWrite_frame hn w s
  rw [hw]
  exact h

theorem execute_inv {w : Word} {s t : State} (h : s.inv) (ht : execute w s = .next t) : t.inv := by
  obtain ⟨o, u, hu, heffect⟩ := execute_effect w s
  cases hu.symm.trans ht
  exact heffect.inv h

theorem perform_inv {act : HostAction} {s t : State} (h : s.inv) (ht : perform act s = .next t) : t.inv := by
  obtain ⟨n, w, -, hn, rfl⟩ | ⟨w, -, hw⟩ | ⟨n, -, rfl⟩ | ⟨a, v, -, ha, rfl⟩ | ⟨a, -, -, rfl⟩ | ⟨a, v, -, ha, rfl⟩ |
    ⟨a, -, -, rfl⟩ | ⟨-, rfl⟩ := perform_cases ht
  · exact regWrite_inv hn w h
  · exact execute_inv (s := { s with cmd := w }) h hw
  · exact h
  · exact srcWrite_inv ha v h
  · exact h
  · exact dstWrite_inv ha v h
  · exact h
  · exact resetAction_inv s

theorem step_inv {s t : State} (h : s.inv) (ht : step s = .next t) : t.inv := by
  obtain ⟨-, rfl⟩ | ⟨act, rest, -, hact⟩ := step_cases ht
  · exact h
  · exact perform_inv (s := { s with pending := rest }) h hact

/-- Settles O51: a command by its effect, a host write by the memory laws, every other action leaves what `inv` reads. -/
theorem stepKeepsTheInvariant : Obligations.StepKeepsTheInvariant :=
  fun _ _ h ht => step_inv h ht

/-- Settles O50: nothing is listed in either memory and STATUS is 0. -/
theorem resetStateMeetsTheInvariant : Obligations.ResetStateMeetsTheInvariant :=
  ⟨State.reset_src_wf, State.reset_dst_wf, Memory.nil_inRange, Memory.nil_inRange, .inl rfl⟩

/-- Settles O49: both registers hold their reset value by definition of the reset state (R35). -/
theorem resetStateClearsCommandAndStatus : Obligations.ResetStateClearsCommandAndStatus := ⟨rfl, rfl⟩

/-! ## The hidden state is never observed -/

/-- Two outcomes that the host cannot tell apart: next states that differ only in `S` and `P`, or the same fault. A refusal
agrees with nothing. -/
def HiddenAgree : Host.Outcome State Fault Refusal → Host.Outcome State Fault Refusal → Prop
  | .next t, u => ∃ S P, u = .next (t.withHidden S P)
  | .fault f, u => u = .fault f
  | .refused _, _ => False

theorem atElement_hiddenAgree (a : Nat) (s : State) (S : Word) (P : List Word) :
    HiddenAgree (atElement a s) (atElement a (s.withHidden S P)) := by
  by_cases ha : a < Config.bufCapacity
  · rw [atElement_of_lt ha, atElement_of_lt ha]
    exact ⟨S, P, rfl⟩
  · rw [atElement_of_le (by omega), atElement_of_le (by omega)]
    rfl

theorem exec_hiddenAgree (i : Instr) (s : State) (S : Word) (P : List Word) :
    HiddenAgree (exec i s) (exec i (s.withHidden S P)) := by
  by_cases h : s.chans = 3
  · obtain ⟨S', P', ht⟩ := transformOf_withHidden i (beginCommand s) S P
    have h' : (s.withHidden S P).chans = 3 := h
    rw [exec_of_three h, exec_of_three h']
    exact ⟨S', P', congrArg (fun x => Host.Outcome.next (complete x)) ht⟩
  · have h' : (s.withHidden S P).chans ≠ 3 := h
    rw [exec_of_not_three h, exec_of_not_three h']
    exact ⟨S, P, rfl⟩

theorem execute_hiddenAgree (w : Word) (s : State) (S : Word) (P : List Word) :
    HiddenAgree (execute w s) (execute w (s.withHidden S P)) := by
  cases h : decode w with
  | command i =>
    rw [execute_command h, execute_command h]
    exact exec_hiddenAgree i s S P
  | illegal why =>
    rw [execute_illegal h, execute_illegal h]
    exact ⟨S, P, rfl⟩

theorem regWrite_withHidden (n : Nat) (w : Word) (s : State) (S : Word) (P : List Word) :
    regWrite n w (s.withHidden S P) = (regWrite n w s).withHidden S P := by
  match n with
  | 0 | 1 | 2 | 3 | 4 => rfl
  | n + 5 => rfl

theorem regRead_withHidden (n : Nat) (s : State) (S : Word) (P : List Word) :
    regRead n (s.withHidden S P) = regRead n s := by
  match n with
  | 0 | 1 | 2 | 3 | 4 | 5 => rfl
  | n + 6 => rfl

theorem perform_hiddenAgree (act : HostAction) (s : State) (S : Word) (P : List Word) :
    HiddenAgree (perform act s) (perform act (s.withHidden S P)) := by
  cases act with
  | writeReg n w =>
    by_cases hn : n = 4
    · subst hn
      exact execute_hiddenAgree w { s with cmd := w } S P
    · rw [perform_writeReg hn, perform_writeReg hn, regWrite_withHidden]
      exact ⟨S, P, rfl⟩
  | readReg n =>
    rw [perform, perform, regRead_withHidden]
    exact ⟨S, P, rfl⟩
  | writeSrc a v => exact atElement_hiddenAgree a (srcWrite a v s) S P
  | readSrc a => exact atElement_hiddenAgree a (reply (.element (srcRead s a)) s) S P
  | writeDst a v => exact atElement_hiddenAgree a (dstWrite a v s) S P
  | readDst a => exact atElement_hiddenAgree a (reply (.element (dstRead s a)) s) S P
  | reset => exact ⟨_, _, rfl⟩

theorem step_hiddenAgree (s : State) (S : Word) (P : List Word) :
    HiddenAgree (step s) (step (s.withHidden S P)) := by
  cases hp : s.pending with
  | nil =>
    have hp' : (s.withHidden S P).pending = [] := hp
    rw [step_idle hp, step_idle hp']
    exact ⟨S, P, rfl⟩
  | cons act rest =>
    have hp' : (s.withHidden S P).pending = act :: rest := hp
    rw [step_action hp, step_action hp']
    exact perform_hiddenAgree act { s with pending := rest } S P

theorem run_hiddenAgree (k : Nat) (s : State) (S : Word) (P : List Word) :
    HiddenAgree (Host.Core.run Sys2Proof.core k s) (Host.Core.run Sys2Proof.core k (s.withHidden S P)) := by
  induction k generalizing s S P with
  | zero => exact ⟨S, P, rfl⟩
  | succ k ih =>
    have hstep := step_hiddenAgree s S P
    cases h : step s with
    | next t =>
      rw [h] at hstep
      obtain ⟨S', P', h'⟩ := hstep
      rw [run_succ_of_next h, run_succ_of_next h']
      exact ih t S' P'
    | fault f =>
      rw [h] at hstep
      rw [run_succ_of_fault h, run_succ_of_fault hstep]
      rfl
    | refused r =>
      rw [h] at hstep
      exact hstep.elim

/-- Settles O52: one step keeps two states equal up to `S` and `P`, hence so does a run, by induction on its length. -/
theorem hiddenStateIsNeverObserved : Obligations.HiddenStateIsNeverObserved := by
  intro k s S P
  have hrun := run_hiddenAgree k s S P
  refine ⟨fun t ht => ?_, fun f hf => ?_, fun r hr => ?_⟩
  · rwa [ht] at hrun
  · rwa [hf] at hrun
  · rwa [hr] at hrun

/-! ## The mask combiner -/

/-- Both forms of R97 write the same bytes to the same addresses. -/
theorem maskXor_dst_eq_maskWith (s : State) :
    (maskXor s).dst = (maskWith (drawMask (seed s.key) s.rows.toNat s.cols.toNat).1 s).dst := by
  rw [maskXor_eq, maskWith_eq]
  refine writeSeq_congr (fun _ _ => rfl) (fun a ha => ?_) s.dst
  have hbyte : (drawMask (seed s.key) s.rows.toNat s.cols.toNat).1[a]? = some (byteOfDraw (stateAfter s.key (a + 1))) :=
    drawBytes_getElem? ha s.key
  rw [List.getD_eq_getElem?_getD, hbyte, Option.getD_some]

/-- Settles O17: the two forms leave the same memory and the same free values of unwritten elements. -/
theorem streamingEqualsWholeMask : Obligations.StreamingEqualsWholeMask := by
  intro s a
  have hresets : (maskXor s).resets = (maskWith (drawMask (seed s.key) s.rows.toNat s.cols.toNat).1 s).resets := by
    rw [maskXor_eq, maskWith_eq]
  rw [dstRead, dstRead, maskXor_dst_eq_maskWith, hresets]

/-! ## Steps that write CMD, and steps that do not -/

/-- Settles O41: the two answers of the decoder, with the illegal one read as the fault entry of R154. -/
theorem stepRunsTheDecodedCommand : Obligations.StepRunsTheDecodedCommand := by
  intro s w rest hp
  rw [step_action hp, perform_writeCmd]
  refine ⟨fun i hi => execute_command hi _, fun why hwhy => ?_⟩
  rw [execute_illegal hwhy, raise_eq_afterFault]

/-- Settles O54, from the effect that every word written to CMD has. -/
theorem commandsLeaveOperandsAndSource : Obligations.CommandsLeaveOperandsAndSource := by
  intro s w rest hp
  obtain ⟨o, t, ht, heffect⟩ := execute_effect w { s with pending := rest, cmd := w }
  obtain ⟨hkey, hrows, hcols, hchans, hcmd, hsrc, hpending, hreplies, hresets⟩ := heffect.operands
  rw [step_action hp, perform_writeCmd]
  exact ⟨t, ht, hkey, hrows, hcols, hchans, hsrc, hcmd, hpending, hreplies, hresets, heffect.dstKept⟩

/-- Settles O53: of the cases of a host action, only those of a CMD write and of `Reset` touch these fields. -/
theorem onlyCommandsAndResetChangeStatus : Obligations.OnlyCommandsAndResetChangeStatus := by
  intro s hcmd hreset hwf
  obtain ⟨t, ht⟩ := step_next_of_wellFormed hwf
  refine ⟨t, ht, ?_⟩
  obtain ⟨-, rfl⟩ | ⟨act, rest, hp, hact⟩ := step_cases ht
  · exact ⟨rfl, rfl, rfl, rfl, rfl, rfl⟩
  obtain ⟨n, w, -, hn, rfl⟩ | ⟨w, rfl, -⟩ | ⟨n, -, rfl⟩ | ⟨a, v, -, -, rfl⟩ | ⟨a, -, -, rfl⟩ | ⟨a, v, -, -, rfl⟩ |
    ⟨a, -, -, rfl⟩ | ⟨rfl, -⟩ := perform_cases hact
  · obtain ⟨k, r, c, ch, hw⟩ := regWrite_frame hn w { s with pending := rest }
    rw [hw]
    exact ⟨rfl, rfl, rfl, rfl, rfl, rfl⟩
  · exact absurd hp (hcmd w rest)
  · exact ⟨rfl, rfl, rfl, rfl, rfl, rfl⟩
  · exact ⟨rfl, rfl, rfl, rfl, rfl, rfl⟩
  · exact ⟨rfl, rfl, rfl, rfl, rfl, rfl⟩
  · exact ⟨rfl, rfl, rfl, rfl, rfl, rfl⟩
  · exact ⟨rfl, rfl, rfl, rfl, rfl, rfl⟩
  · exact absurd hp (hreset rest)

end Sys2Proof.Machine

/-! # Proofs of the family `20_memory.md` -/

namespace Sys2Proof.Machine

/-! ## The only stop -/

theorem perform_fault_of_not_wellFormed {act : HostAction} (h : act.wellFormed = false) (s : State) :
    perform act s = .fault .noSuchElement := by
  cases act with
  | writeReg n w => cases h
  | readReg n => cases h
  | writeSrc a v => exact atElement_of_le (Nat.le_of_not_lt (of_decide_eq_false h)) _
  | readSrc a => exact atElement_of_le (Nat.le_of_not_lt (of_decide_eq_false h)) _
  | writeDst a v => exact atElement_of_le (Nat.le_of_not_lt (of_decide_eq_false h)) _
  | readDst a => exact atElement_of_le (Nat.le_of_not_lt (of_decide_eq_false h)) _
  | reset => cases h

/-- Settles O46: an idle engine stays, a well-formed action ends in a next state, any other is the fault. -/
theorem stepStopsOnlyOutsideTheBuffers : Obligations.StepStopsOnlyOutsideTheBuffers := by
  intro s
  cases hp : s.pending with
  | nil => exact .inr ⟨nofun, s, step_idle hp, fun _ => rfl⟩
  | cons act rest =>
    rw [step_action hp]
    cases hwf : act.wellFormed with
    | false => exact .inl ⟨act, rest, rfl, hwf, perform_fault_of_not_wellFormed hwf _⟩
    | true =>
      obtain ⟨t, ht⟩ := perform_next_of_wellFormed hwf { s with pending := rest }
      refine .inr ⟨fun act' rest' heq => ?_, t, ht, nofun⟩
      cases heq
      exact hwf

/-! ## Pixel indices and element addresses -/

theorem pix_lt {rows cols r c : Nat} (hr : r < rows) (hc : c < cols) : pix cols r c < rows * cols :=
  calc r * cols + c
      < r * cols + cols := Nat.add_lt_add_left hc _
    _ = (r + 1) * cols := (Nat.succ_mul r cols).symm
    _ ≤ rows * cols := Nat.mul_le_mul_right cols hr

theorem pixelAddr_lt {n p ch : Nat} (hp : p < n) (hch : ch < 3) : pixelAddr p ch < 3 * n := by
  rw [pixelAddr, channels]
  omega

theorem rowOf_pix {cols c : Nat} (hc : c < cols) (r : Nat) : rowOf cols (pix cols r c) = r := by
  rw [rowOf, pix, Nat.add_comm, Nat.add_mul_div_right c r (Nat.zero_lt_of_lt hc), Nat.div_eq_of_lt hc, Nat.zero_add]

theorem colOf_pix {cols c : Nat} (hc : c < cols) (r : Nat) : colOf cols (pix cols r c) = c := by
  rw [colOf, pix, Nat.mul_add_mod', Nat.mod_eq_of_lt hc]

theorem pix_rowOf_colOf (cols p : Nat) : pix cols (rowOf cols p) (colOf cols p) = p := Nat.div_add_mod' p cols

theorem rowOf_lt {rows cols p : Nat} (hp : p < rows * cols) : rowOf cols p < rows :=
  Nat.div_lt_of_lt_mul (Nat.mul_comm rows cols ▸ hp)

/-- A pixel exists only where there is a column. -/
theorem colOf_lt {rows cols p : Nat} (hp : p < rows * cols) : colOf cols p < cols :=
  Nat.mod_lt p (Nat.pos_of_mul_pos_left (Nat.zero_lt_of_lt hp))

/-- Settles O5: row and column are quotient and remainder of the index by COLS, which bounds each of them. -/
theorem elementAddresses : Obligations.ElementAddresses := by
  refine ⟨fun s r c ch hr hc hch => ?_, fun s p hp => ?_⟩
  · have hpix : pix s.cols.toNat r c < pixels s := pix_lt hr hc
    exact ⟨rfl, hpix, rfl, pixelAddr_lt hpix hch, rowOf_pix hc r, colOf_pix hc r⟩
  · exact ⟨rfl, rfl, rowOf_lt hp, colOf_lt hp, pix_rowOf_colOf _ p⟩

end Sys2Proof.Machine

/-! # Proofs of the family `30_encoding.md` -/

namespace Sys2Proof

/-! ## The fields of a command word as numbers (R62) -/

theorem methodField_toNat (w : Word) : (methodField w).toNat = w.toNat % 8 := by
  rw [methodField, BitVec.extractLsb'_toNat, Nat.shiftRight_zero]

theorem dirField_toNat (w : Word) : (dirField w).toNat = w.toNat / 8 % 2 := by
  rw [dirField, BitVec.extractLsb'_toNat, Nat.shiftRight_eq_div_pow]

theorem reservedField_eq_zero_iff {w : Word} : reservedField w = 0 ↔ w.toNat / 16 = 0 := by
  have hw := w.isLt
  rw [← BitVec.toNat_inj, reservedField, BitVec.extractLsb'_toNat, Nat.shiftRight_eq_div_pow,
    BitVec.ofNat_eq_ofNat, BitVec.toNat_zero]
  omega

theorem packCommand_toNat (d : BitVec 1) (m : BitVec 3) : (packCommand d m).toNat = 8 * d.toNat + m.toNat := by
  revert d m; decide

/-- A word is packed from a direction and a method exactly when these are its fields and its reserved bits are 0. -/
theorem eq_packCommand_iff {w : Word} {d : BitVec 1} {m : BitVec 3} :
    w = packCommand d m ↔ reservedField w = 0 ∧ methodField w = m ∧ dirField w = d := by
  have hd := d.isLt
  have hm := m.isLt
  rw [reservedField_eq_zero_iff, ← BitVec.toNat_inj, ← BitVec.toNat_inj, ← BitVec.toNat_inj, packCommand_toNat,
    methodField_toNat, dirField_toNat]
  omega

/-! ## The table of R63 and R64 -/

theorem commandOf_eq_some_iff {m : BitVec 3} {d : BitVec 1} {i : Instr} :
    commandOf m d = some i ↔ m = methodOf i ∧ d = dirOf i := by
  cases i <;> revert m d <;> decide

theorem commandOf_isSome_iff {m : BitVec 3} {d : BitVec 1} : (commandOf m d).isSome ↔ m.toNat < 4 := by
  revert m d; decide

/-! ## The decoder -/

/-- When `Decode(w)` is a command: the reserved bits are 0 and the table has an entry for the two fields (R65). -/
theorem decode_eq_command_iff_fields {w : Word} {i : Instr} :
    decode w = .command i ↔ reservedField w = 0 ∧ commandOf (methodField w) (dirField w) = some i := by
  rw [decode]
  split
  case isTrue h => exact ⟨nofun, fun hi => absurd hi.1 h⟩
  case isFalse h =>
    have hr : reservedField w = 0 := not_not.mp h
    cases commandOf (methodField w) (dirField w) <;> simp [hr]

/-- The one word that decodes to a command is its encoding. -/
theorem decode_eq_command_iff {w : Word} {i : Instr} : decode w = .command i ↔ w = encode i := by
  rw [decode_eq_command_iff_fields, commandOf_eq_some_iff, encode, eq_packCommand_iff]

theorem decode_encode (i : Instr) : decode (encode i) = .command i := decode_eq_command_iff.mpr rfl

theorem exists_decode_command_iff {w : Word} :
    (∃ i, decode w = .command i) ↔ w.toNat / 16 = 0 ∧ w.toNat % 8 < 4 := by
  simp only [decode_eq_command_iff_fields, exists_and_left, ← Option.isSome_iff_exists, commandOf_isSome_iff,
    methodField_toNat, reservedField_eq_zero_iff]

/-- `Decode` is total: a word that is no command is illegal (R65). -/
theorem exists_decode_illegal_iff {w : Word} :
    (∃ why, decode w = .illegal why) ↔ ¬ ∃ i, decode w = .command i := by
  cases decode w <;> simp

/-! ## The eight legal words -/

/-- The commands in the order in which R65 lists their words. -/
def commandsByWord : List Instr :=
  [.xorEnc, .swapEnc, .mathEnc, .channelEnc, .xorDec, .swapDec, .mathDec, .channelDec]

theorem mem_commandsByWord (i : Instr) : i ∈ commandsByWord := by
  cases i <;> decide

theorem commandsByWord_map_encode :
    commandsByWord.map encode = [0x0, 0x1, 0x2, 0x3, 0x8, 0x9, 0xA, 0xB] := by decide

/-- The words of R65's list are the words that decode to a command. -/
theorem mem_legalWords_iff {w : Word} :
    w ∈ [0x0, 0x1, 0x2, 0x3, 0x8, 0x9, 0xA, 0xB] ↔ ∃ i, decode w = .command i := by
  rw [← commandsByWord_map_encode, List.mem_map]
  constructor
  · rintro ⟨i, -, rfl⟩
    exact ⟨i, decode_encode i⟩
  · rintro ⟨i, hi⟩
    exact ⟨i, mem_commandsByWord i, (decode_eq_command_iff.mp hi).symm⟩

/-- Settles O1: the two clauses on the fields are the two cases of the decoder, and the list is the range of the encoder. -/
theorem decodeFollowsTheFields : Obligations.DecodeFollowsTheFields := by
  refine ⟨fun w hw => ?_, fun w hr hm => ?_, decode_encode .xorEnc, decode_encode .swapEnc, decode_encode .mathEnc,
    decode_encode .channelEnc, decode_encode .xorDec, decode_encode .swapDec, decode_encode .mathDec,
    decode_encode .channelDec⟩
  · rw [exists_decode_illegal_iff, exists_decode_command_iff]
    omega
  · have hcommand : ∃ i, decode w = .command i := exists_decode_command_iff.mpr ⟨hr, hm⟩
    exact ⟨mem_legalWords_iff.mpr hcommand, hcommand⟩

/-- Settles O2: every command is well-formed, and its encoding is the one word that decodes to it. -/
theorem decodeAndEncodeAgree : Obligations.DecodeAndEncodeAgree := fun _ _ _ => decode_eq_command_iff

/-- Settles O3: each word written out is the encoding of its command. -/
theorem sampleWordsDecode : Obligations.SampleWordsDecode :=
  ⟨decode_encode .xorDec, decode_encode .swapDec, decode_encode .mathEnc, decode_encode .channelDec⟩

/-! ## The assembler (R67, R68) -/

theorem assemble_encrypt (name : String) :
    assemble name "encrypt" = some (packCommand 0 (assembleMethod name)) := rfl

theorem assemble_decrypt (name : String) :
    assemble name "decrypt" = some (packCommand 1 (assembleMethod name)) := rfl

theorem assembleMethod_unknown {name : String} (h : name ∉ ["xor", "swap", "math", "channel"]) :
    assembleMethod name = 7 := by
  simp only [List.mem_cons, List.not_mem_nil, or_false, not_or] at h
  obtain ⟨hxor, hswap, hmath, hchannel⟩ := h
  rw [assembleMethod, if_neg hxor, if_neg hswap, if_neg hmath, if_neg hchannel]

theorem assemble_unknown_direction (name : String) {dir : String} (h : dir ∉ ["encrypt", "decrypt"]) :
    assemble name dir = none := by
  simp only [List.mem_cons, List.not_mem_nil, or_false, not_or] at h
  obtain ⟨hencrypt, hdecrypt⟩ := h
  rw [assemble, assembleDir, if_neg hencrypt, if_neg hdecrypt, Option.map_none]

end Sys2Proof

namespace Sys2Proof.Machine

/-! ## Illegal words at the engine -/

theorem execute_illegal_afterFault {w : Word} {why : Illegal} (h : decode w = .illegal why) (s : State) :
    execute w s = .next (s.afterFault .unknownMethod) := by
  rw [execute_illegal h, raise_eq_afterFault]

/-- Settles O4: four known names, `METHOD = 7` for every other one, and the decoder's answer to the two words it makes. -/
theorem assemblerWords : Obligations.AssemblerWords := by
  refine ⟨fun name code h => ?_, fun name h => ?_, fun s => ?_, fun name dir h => assemble_unknown_direction name h⟩
  · simp only [List.mem_cons, Prod.mk.injEq, List.not_mem_nil, or_false] at h
    obtain ⟨rfl, rfl⟩ | ⟨rfl, rfl⟩ | ⟨rfl, rfl⟩ | ⟨rfl, rfl⟩ := h <;> exact ⟨rfl, rfl⟩
  · rw [assemble_encrypt, assemble_decrypt, assembleMethod_unknown h]
    exact ⟨rfl, rfl⟩
  · have hencrypt : decode 0x00000007 = .illegal .unrecognisedMethod := rfl
    have hdecrypt : decode 0x0000000F = .illegal .unrecognisedMethod := rfl
    exact ⟨execute_illegal_afterFault hencrypt s, execute_illegal_afterFault hdecrypt s⟩

/-- Settles O38: a word outside the list does not decode to a command, so the step is the fault entry. -/
theorem illegalWordRaisesUnknownMethod : Obligations.IllegalWordRaisesUnknownMethod := by
  intro s w rest hp hw
  obtain ⟨why, hwhy⟩ := exists_decode_illegal_iff.mpr fun hcommand => hw (mem_legalWords_iff.mpr hcommand)
  obtain ⟨-, hillegal⟩ := stepRunsTheDecodedCommand s w rest hp
  exact hillegal why hwhy

/-! ## The copy line (R69) -/

/-- The host's copy loop over the addresses `l`, with the values to be written at hand. -/
def copyLoop (val : Nat → Byte) (l : List Nat) : List HostAction :=
  l.flatMap fun a => [.readDst a, .writeSrc a (val a)]

theorem copyActions_eq (s : State) (n : Nat) : copyActions s n = copyLoop (dstRead s) (List.range n) := rfl

theorem copyLoop_cons (val : Nat → Byte) (a : Nat) (l : List Nat) :
    copyLoop val (a :: l) = .readDst a :: .writeSrc a (val a) :: copyLoop val l := rfl

theorem step_readDst {s : State} {a : Nat} {rest : List HostAction} (hp : s.pending = .readDst a :: rest)
    (ha : a < Config.bufCapacity) :
    step s = .next { s with pending := rest, replies := .element (dstRead s a) :: s.replies } := by
  rw [step_action hp]
  exact atElement_of_lt ha _

theorem step_writeSrc {s : State} {a : Nat} {v : Byte} {rest : List HostAction} (hp : s.pending = .writeSrc a v :: rest)
    (ha : a < Config.bufCapacity) : step s = .next (srcWrite a v { s with pending := rest }) := by
  rw [step_action hp]
  exact atElement_of_lt ha _

/-- Running a copy loop writes its values at its addresses and changes nothing else but the replies. -/
theorem run_copyLoop (val : Nat → Byte) {l : List Nat} (hl : ∀ a ∈ l, a < Config.bufCapacity) (s : State)
    (rest : List HostAction) : ∃ t,
      Host.Core.run Sys2Proof.core (copyLoop val l).length { s with pending := copyLoop val l ++ rest } = .next t ∧
      (∀ b, srcRead t b = if b ∈ l then val b else srcRead s b) ∧
      t = { s with src := t.src, replies := t.replies, pending := rest } := by
  induction l generalizing s with
  | nil => exact ⟨{ s with pending := rest }, rfl, fun b => rfl, rfl⟩
  | cons a l ih =>
    obtain ⟨ha, hl⟩ := List.forall_mem_cons.mp hl
    obtain ⟨t, hrun, hread, hframe⟩ :=
      ih hl (srcWrite a (val a) { s with replies := .element (dstRead s a) :: s.replies })
    refine ⟨t, ?_, fun b => ?_, hframe⟩
    · rw [copyLoop_cons, List.length_cons, List.length_cons, run_succ_of_next (step_readDst rfl ha),
        run_succ_of_next (step_writeSrc rfl ha)]
      exact hrun
    · have hwrite : srcRead t b = if b ∈ l then val b else if b = a then val a else srcRead s b :=
        (hread b).trans (by rw [srcRead_srcWrite]; rfl)
      rw [hwrite]
      by_cases hb : b = a <;> simp [hb]

/-- Settles O47: the line is the copy loop over the buffer's addresses, all of which exist. -/
theorem copyLineCopiesTheResult : Obligations.CopyLineCopiesTheResult := by
  intro s
  have hcap : ∀ a ∈ List.range (elements s), a < Config.bufCapacity := fun a ha =>
    (List.mem_range.mp ha).trans_le (elements_le_capacity s)
  obtain ⟨t, hrun, hread, hframe⟩ := run_copyLoop (dstRead s) hcap s s.pending
  refine ⟨_, rfl, t, hrun, fun a => ?_, hframe⟩
  simpa only [List.mem_range, elements_eq] using hread a

end Sys2Proof.Machine

/-! # Proofs of the family `40_prng.md` -/

namespace Sys2Proof.Machine

/-! ## One draw as arithmetic (R81 to R85) -/

theorem lcgNext_toNat (S : Word) : (lcgNext S).toNat = (S.toNat * 1664525 + 1013904223) % 4294967296 := by
  rw [lcgNext, BitVec.toNat_add, BitVec.toNat_mul, lcgA, lcgC]
  exact Nat.mod_add_mod _ _ _

theorem byteOfDraw_toNat (u : Word) : (byteOfDraw u).toNat = u.toNat / 16777216 := by
  have hu := u.isLt
  rw [byteOfDraw, BitVec.extractLsb'_toNat, Nat.shiftRight_eq_div_pow]
  omega

theorem belowOfDraw_eq (u : Word) (n : Nat) : belowOfDraw u n = u.toNat * n / 4294967296 :=
  Nat.shiftRight_eq_div_pow _ 32

/-- Settles O6: the seed is its argument, and the pattern of a word's signed value is the word. -/
theorem seedIsTheKeyPattern : Obligations.SeedIsTheKeyPattern := by
  intro k
  rw [seed_eq, seed_eq, BitVec.ofInt_toInt]
  exact ⟨rfl, rfl⟩

/-- Settles O7: the recurrence on numbers, and the rule's draws by running the generator. -/
theorem nextIsTheRecurrence : Obligations.NextIsTheRecurrence :=
  ⟨lcgNext_toNat, by decide, by decide, by decide⟩

/-- Settles O10: the top byte as a quotient, and the rule's bytes by running the generator. -/
theorem drawByteIsTheTopByte : Obligations.DrawByteIsTheTopByte :=
  ⟨fun S => ⟨byteOfDraw_toNat (lcgNext S), drawByte_snd S⟩, by decide, by decide⟩

/-- Settles O11: the scaled draw is a quotient below `n`, and the rule's cases by running the generator. -/
theorem drawBelowIsInRange : Obligations.DrawBelowIsInRange := by
  refine ⟨fun S n hn _ => ⟨belowOfDraw_eq (lcgNext S) n, ?_, drawBelow_snd S n⟩, fun S => ?_, by decide, by decide,
    by decide, by decide, by decide⟩
  · exact Nat.le_sub_one_of_lt (belowOfDraw_lt (lcgNext S) hn)
  · exact Nat.lt_one_iff.mp (belowOfDraw_lt (lcgNext S) Nat.one_pos)

/-- Settles O8, by induction on the number of draws: one more draw multiplies the power and extends the geometric sum. -/
theorem generatorClosedForm : Obligations.GeneratorClosedForm := by
  intro k n
  induction n with
  | zero => simp [Nat.mod_eq_of_lt k.isLt]
  | succ n ih =>
    have hsum : 1664525 ^ (n + 1) * k.toNat + 1013904223 * ∑ j ∈ Finset.range (n + 1), 1664525 ^ j =
        (1664525 ^ n * k.toNat + 1013904223 * ∑ j ∈ Finset.range n, 1664525 ^ j) * 1664525 + 1013904223 := by
      rw [geom_sum_succ]
      ring
    rw [stateAfter_succ, lcgNext_toNat, ih, hsum, Nat.add_mod, Nat.mod_mul_mod, ← Nat.add_mod]

/-! ## The step undone (R83) -/

/-- The generator state before a draw: the increment taken off, then the inverse of the odd multiplier modulo 2^32. -/
def lcgPrev (S : Word) : Word := (S - lcgC) * 4276115653

theorem lcgA_mul_inverse : lcgA * 4276115653 = 1 := by decide

theorem lcgPrev_lcgNext (S : Word) : lcgPrev (lcgNext S) = S := by
  rw [lcgPrev, lcgNext, add_sub_cancel_right, mul_assoc, lcgA_mul_inverse, mul_one]

theorem lcgNext_lcgPrev (S : Word) : lcgNext (lcgPrev S) = S := by
  rw [lcgPrev, lcgNext, mul_assoc, mul_comm _ lcgA, lcgA_mul_inverse, mul_one, sub_add_cancel]

/-- Settles O9: the step has an inverse on both sides. -/
theorem generatorStepIsBijective : Obligations.GeneratorStepIsBijective :=
  Function.bijective_iff_has_inverse.mpr ⟨lcgPrev, lcgPrev_lcgNext, lcgNext_lcgPrev⟩

/-! ## The mask (R86) -/

theorem drawBytes_snd (n : Nat) (S : Word) : (drawBytes n S).2 = stateAfter S n := by
  induction n generalizing S with
  | zero => rfl
  | succ n ih => simp only [drawBytes, drawByte_snd, ih, stateAfter_next]

theorem drawMask_eq (S : Word) (rows cols : Nat) : drawMask S rows cols = drawBytes (3 * rows * cols) S := by
  rw [drawMask, channels, Nat.mul_assoc]

/-- Settles O12: a mask is that many bytes drawn in a row. -/
theorem maskFollowsTheDrawOrder : Obligations.MaskFollowsTheDrawOrder := by
  refine ⟨fun S rows cols => ?_, by decide⟩
  rw [drawMask_eq]
  exact ⟨drawBytes_length _ S, fun a ha => drawBytes_getElem? ha S, drawBytes_snd _ S⟩

/-! ## The shuffle (R88, R89) -/

theorem entry_identityTable {n i : Nat} (hn : n ≤ 2 ^ 32) (hi : i < n) : entry (identityTable n) i = i := by
  rw [entry_eq (by rwa [identityTable_length])]
  simp only [identityTable, List.getElem_map, List.getElem_range, BitVec.toNat_ofNat]
  exact Nat.mod_eq_of_lt (by omega)

theorem swapEntries_getElem? {t : List Word} {i j : Nat} (hi : i < t.length) (hj : j < t.length) (k : Nat) :
    (swapEntries t i j)[k]? = if k = j then t[i]? else if k = i then t[j]? else t[k]? := by
  rw [swapEntries, List.getD_eq_getElem t 0 hi, List.getD_eq_getElem t 0 hj, List.getElem?_set, List.getElem?_set,
    List.length_set, List.getElem?_eq_getElem hi, List.getElem?_eq_getElem hj]
  simp only [eq_comm (b := k), hi, hj, if_true]

/-- The step of the shuffle from `i` that draw `m + 1` serves: the exchange of entry `i - m`. -/
def shuffleStep (i : Nat) (S : Word) (t : List Word) (m : Nat) : List Word :=
  swapEntries t (i - m) (belowOfDraw (stateAfter S (m + 1)) (i - m + 1))

/-- In a table of `n` entries the shuffle starts from `n - 1`: draw `k = m + 1` serves step `n - k` (R88). -/
theorem shuffleStep_pred (n : Nat) (S : Word) (t : List Word) (m : Nat) :
    shuffleStep (n - 1) S t m =
      swapEntries t (n - (m + 1)) (belowOfDraw (stateAfter S (m + 1)) (n - (m + 1) + 1)) := by
  rw [shuffleStep, Nat.sub_sub, Nat.add_comm 1 m]

/-- After the first step, the shuffle goes on one entry below and one draw later. -/
theorem shuffleStep_succ (i : Nat) (S : Word) (t : List Word) (m : Nat) :
    shuffleStep (i + 1) S t (m + 1) = shuffleStep i (lcgNext S) t m := by
  rw [shuffleStep, shuffleStep, Nat.add_sub_add_right, stateAfter_next]

/-- The shuffle from `i` is its steps in draw order, one draw each. -/
theorem shuffleFrom_eq_foldl (i : Nat) (t : List Word) (S : Word) :
    shuffleFrom i (t, S) = ((List.range i).foldl (shuffleStep i S) t, stateAfter S i) := by
  induction i generalizing t S with
  | zero => rfl
  | succ i ih =>
    have htail : ∀ x, ((List.range i).map Nat.succ).foldl (shuffleStep (i + 1) S) x =
        (List.range i).foldl (shuffleStep i (lcgNext S)) x := fun x => by
      simp only [List.foldl_map, Nat.succ_eq_add_one, shuffleStep_succ]
    calc shuffleFrom (i + 1) (t, S)
        = shuffleFrom i (shuffleStep (i + 1) S t 0, lcgNext S) := rfl
      _ = ((List.range i).foldl (shuffleStep i (lcgNext S)) (shuffleStep (i + 1) S t 0), stateAfter S (i + 1)) := by
        rw [ih, stateAfter_next]
      _ = ((List.range (i + 1)).foldl (shuffleStep (i + 1) S) t, stateAfter S (i + 1)) := by
        rw [List.range_succ_eq_map, List.foldl_cons, htail]

/-- Settles O13: the two operations entry by entry, the shuffle as its steps in draw order, and the rule's example. -/
theorem shuffleFollowsTheDrawOrder : Obligations.ShuffleFollowsTheDrawOrder := by
  refine ⟨fun n i hn hi => ⟨identityTable_length n, entry_identityTable (by omega) hi⟩,
    fun t i j k hi hj => swapEntries_getElem? hi hj k, fun S n => ?_, fun S => ⟨rfl, rfl⟩, by decide⟩
  rw [drawPermutation, shuffleFrom_eq_foldl, funext₂ (shuffleStep_pred n S)]

/-- Settles O14: the shuffle only exchanges entries of the identity ordering. -/
theorem tableIsAPermutation : Obligations.TableIsAPermutation :=
  fun S _ hn => drawPermutation_isPermutation S (by omega)

/-! ## What a transform leaves at an element -/

/-- The address that a table gives to element `k`: the pixel's entry, at the element's own channel (R104). -/
def slot (t : List Word) (k : Nat) : Nat := pixelAddr (entry t (k / 3)) (k % 3)

section
variable {t : List Word} {n : Nat} (ht : isPermutation t n)
include ht

theorem slot_lt {k : Nat} (hk : k < 3 * n) : slot t k < 3 * n :=
  pixelAddr_lt (entry_lt ht (by omega)) (by omega)

theorem slot_injective {k l : Nat} (hk : k < 3 * n) (hl : l < 3 * n) (h : slot t k = slot t l) : k = l := by
  simp only [slot, pixelAddr, channels] at h
  have hpixel : k / 3 = l / 3 := entry_injective ht (by omega) (by omega) (by omega)
  omega

theorem slot_surjective {a : Nat} (ha : a < 3 * n) : ∃ k, k < 3 * n ∧ slot t k = a := by
  obtain ⟨p, hp, hentry⟩ := entry_surjective ht (by omega : a / 3 < n)
  refine ⟨pixelAddr p (a % 3), pixelAddr_lt hp (by omega), ?_⟩
  simp only [slot, pixelAddr, channels]
  rw [show (3 * p + a % 3) / 3 = p by omega, hentry]
  omega

end

/-- What DST reads at an address that a sequence of writes wrote once. -/
theorem dstRead_writeSeq {s : State} {n : Nat} {addr : Nat → Nat} {val : Nat → Byte} {m : Memory}
    (hdst : s.dst = writeSeq n addr val m) (inj : ∀ i j, i < n → j < n → addr i = addr j → i = j) {i : Nat}
    (hi : i < n) : dstRead s (addr i) = val i := by
  rw [dstRead, hdst, writeSeq_read inj val m hi, Option.getD_some]

theorem dstRead_maskXor {s : State} {a : Nat} (ha : a < elements s) :
    dstRead (maskXor s) a = combine (srcRead s a) (byteOfDraw (stateAfter s.key (a + 1))) :=
  dstRead_writeSeq (congrArg State.dst (maskXor_eq s)) (fun _ _ _ _ h => h) ha

theorem dstRead_maskWith (mask : List Byte) {s : State} {a : Nat} (ha : a < elements s) :
    dstRead (maskWith mask s) a = combine (srcRead s a) (mask.getD a 0) :=
  dstRead_writeSeq (congrArg State.dst (maskWith_eq mask s)) (fun _ _ _ _ h => h) ha

theorem dstRead_scatterPixels {s : State} (hP : isPermutation s.P (pixels s)) {k : Nat} (hk : k < elements s) :
    dstRead (scatterPixels s) (slot s.P k) = srcRead s k :=
  dstRead_writeSeq (congrArg State.dst (scatterPixels_eq s)) (fun _ _ hi hj h => slot_injective hP hi hj h) hk

theorem dstRead_gatherPixels {s : State} {k : Nat} (hk : k < elements s) :
    dstRead (gatherPixels s) k = srcRead s (slot s.P k) :=
  dstRead_writeSeq (congrArg State.dst (gatherPixels_eq s)) (fun _ _ _ _ h => h) hk

/-! ## Round trips for every generator (R94) -/

theorem combine_combine (v m : Byte) : combine (combine v m) m = v := by
  rw [combine, combine, BitVec.xor_assoc, BitVec.xor_self, BitVec.xor_zero]

theorem maskWith_undoes_maskWith {s u : State} (hpixels : pixels u = pixels s) {mask : List Byte}
    (hsrc : (maskWith mask s).sourceIsResult u (elements s)) {a : Nat} (ha : a < elements s) :
    dstRead (maskWith mask u) a = srcRead s a := by
  have hau : a < elements u := by rwa [elements_eq, hpixels]
  rw [dstRead_maskWith mask hau, hsrc a ha, dstRead_maskWith mask ha, combine_combine]

section
variable {s u : State} (hpixels : pixels u = pixels s) (hP : isPermutation s.P (pixels s)) (huP : u.P = s.P)
include hpixels hP huP

/-- Gathering takes each element back from the slot that scattering put it into. -/
theorem gatherPixels_undoes_scatterPixels (hsrc : (scatterPixels s).sourceIsResult u (elements s)) {a : Nat}
    (ha : a < elements s) : dstRead (gatherPixels u) a = srcRead s a := by
  have hau : a < elements u := by rwa [elements_eq, hpixels]
  rw [dstRead_gatherPixels hau, huP, hsrc _ (slot_lt hP ha), dstRead_scatterPixels hP ha]

/-- Scattering puts each element back into the slot that gathering took it from; every element has such a slot. -/
theorem scatterPixels_undoes_gatherPixels (hsrc : (gatherPixels s).sourceIsResult u (elements s)) {a : Nat}
    (ha : a < elements s) : dstRead (scatterPixels u) a = srcRead s a := by
  obtain ⟨k, hk, rfl⟩ := slot_surjective hP ha
  have hku : k < elements u := by rwa [elements_eq, hpixels]
  have huPerm : isPermutation u.P (pixels u) := by rwa [huP, hpixels]
  rw [← huP, dstRead_scatterPixels huPerm hku, hsrc k hk, dstRead_gatherPixels hk, huP]

end

/-- Settles O33: the contract's mask serves twice, and its table is the permutation that the two swap data paths need. -/
theorem roundTripForEveryConformingGenerator : Obligations.RoundTripForEveryConformingGenerator := by
  intro mask table hcontract s u k hrows hcols
  obtain ⟨-, htable⟩ := hcontract
  have hpixels : pixels u = pixels s := pixels_congr hrows hcols
  have hperm : isPermutation (table k (pixels s)) (pixels s) := htable k _ (pixels_le s)
  rw [hpixels]
  refine ⟨fun hsrc a ha => ?_, fun hsrc a ha => ?_, fun hsrc a ha => ?_⟩
  · rw [hrows, hcols]
    exact maskWith_undoes_maskWith hpixels hsrc ha
  · exact gatherPixels_undoes_scatterPixels (s := { s with P := table k (pixels s) })
      (u := { u with P := table k (pixels s) }) hpixels hperm rfl hsrc ha
  · exact scatterPixels_undoes_gatherPixels (s := { s with P := table k (pixels s) })
      (u := { u with P := table k (pixels s) }) hpixels hperm rfl hsrc ha

/-! ## What `xor` and `swap` depend on (R90, R101, R110) -/

/-- The table that a swap command draws (R105, R106). -/
def drawnTable (s : State) : List Word := (drawPermutation s.key (pixels s)).1

theorem drawnTable_isPermutation (s : State) : isPermutation (drawnTable s) (pixels s) :=
  drawPermutation_isPermutation s.key ((pixels_le s).trans (by decide))

theorem dstRead_permFwd {s : State} {k : Nat} (hk : k < elements s) :
    dstRead (permFwd s) (slot (drawnTable s) k) = srcRead s k :=
  dstRead_scatterPixels (s := buildTable s) (drawnTable_isPermutation s) hk

theorem dstRead_permInv {s : State} {k : Nat} (hk : k < elements s) :
    dstRead (permInv s) k = srcRead s (slot (drawnTable s) k) :=
  dstRead_gatherPixels (s := buildTable s) hk

/-- Two states agree on KEY, the pixel count and the elements of SRC that belong to the buffer. -/
structure SameKeyAndBuffer (s u : State) : Prop where
  key : u.key = s.key
  pixels : pixels u = pixels s
  source : ∀ a, a < elements s → srcRead u a = srcRead s a

section
variable {s u : State} (h : SameKeyAndBuffer s u)
include h

theorem SameKeyAndBuffer.elements : elements u = elements s := by
  rw [elements_eq, h.pixels, elements_eq]

theorem SameKeyAndBuffer.drawnTable : drawnTable u = drawnTable s := by
  rw [Machine.drawnTable, h.key, h.pixels, Machine.drawnTable]

theorem SameKeyAndBuffer.dstRead_maskXor {a : Nat} (ha : a < Machine.elements s) :
    dstRead (maskXor u) a = dstRead (maskXor s) a := by
  rw [Machine.dstRead_maskXor ha, Machine.dstRead_maskXor (h.elements ▸ ha), h.key, h.source a ha]

theorem SameKeyAndBuffer.dstRead_permFwd {a : Nat} (ha : a < Machine.elements s) :
    dstRead (permFwd u) a = dstRead (permFwd s) a := by
  obtain ⟨k, hk, rfl⟩ := slot_surjective (drawnTable_isPermutation s) ha
  rw [Machine.dstRead_permFwd hk, ← h.drawnTable, Machine.dstRead_permFwd (h.elements ▸ hk), h.source k hk]

theorem SameKeyAndBuffer.dstRead_permInv {a : Nat} (ha : a < Machine.elements s) :
    dstRead (permInv u) a = dstRead (permInv s) a := by
  rw [Machine.dstRead_permInv ha, Machine.dstRead_permInv (h.elements ▸ ha), h.drawnTable,
    h.source _ (slot_lt (drawnTable_isPermutation s) ha)]

theorem SameKeyAndBuffer.dstRead_transformOf {i : Instr} (hi : i ∈ [Instr.xorEnc, .xorDec, .swapEnc, .swapDec])
    {a : Nat} (ha : a < Machine.elements s) : dstRead (transformOf i u) a = dstRead (transformOf i s) a := by
  simp only [List.mem_cons, List.not_mem_nil, or_false] at hi
  obtain rfl | rfl | rfl | rfl := hi
  · exact h.dstRead_maskXor ha
  · exact h.dstRead_maskXor ha
  · exact h.dstRead_permFwd ha
  · exact h.dstRead_permInv ha

end

/-- Settles O34: both runs complete, with the same STATUS and, element by element, the same DST. -/
theorem xorAndSwapDependOnKeyAndPixelCount : Obligations.XorAndSwapDependOnKeyAndPixelCount := by
  intro s u i hi hkey hchans hthree hpixels hsrc
  have hsame : SameKeyAndBuffer (beginCommand s) (beginCommand u) := ⟨hkey, hpixels, hsrc⟩
  refine ⟨_, _, exec_of_three hthree i, exec_of_three (hchans.trans hthree) i, ?_, fun a ha => ?_⟩
  · rw [(complete_transformOf_effect i u).status, (complete_transformOf_effect i s).status]
  · exact hsame.dstRead_transformOf hi ha

end Sys2Proof.Machine

/-! # Proofs of the family `41_mask_xor.md` -/

namespace Sys2Proof.Machine

/-! ## The combiner's laws (R99) -/

/-- A second mask byte restores the element exactly where it is the first one. -/
theorem combine_combine_eq_self_iff {v m m' : Byte} : combine (combine v m) m' = v ↔ m' = m :=
  calc combine (combine v m) m' = v
      ↔ combine (combine v m) m' = combine (combine v m) m := by rw [combine_combine]
    _ ↔ m' = m := BitVec.xor_right_inj _

/-- Settles O15: the combiner is the bitwise exclusive-or, whose laws are the library's. -/
theorem combineIsBitwiseXor : Obligations.CombineIsBitwiseXor := fun v m =>
  ⟨fun _ _ => BitVec.getLsbD_xor, combine_combine v m, BitVec.xor_zero, BitVec.xor_self, BitVec.xor_comm v m⟩

/-! ## What a command with the right and with a wrong channel count ends in -/

theorem CommandEffect.completedFrom {s t : State} (h : CommandEffect .completed s t) : s.completedFrom t :=
  ⟨h.status, h.outcomes, h.operands, h.dstKept⟩

theorem exec_afterFault_of_not_three {s : State} (h : s.chans ≠ 3) (i : Instr) :
    exec i s = .next (s.afterFault .badChannelCount) := by
  rw [exec_of_not_three h, raise_eq_afterFault]

/-! ## The two `xor` commands (R97, R98) -/

/-- The state in which an `xor` command completes. -/
def afterXor (s : State) : State := complete (maskXor (beginCommand s))

/-- Both directions select the same transform (R98). -/
theorem transformOf_xor {i : Instr} (hi : i = .xorEnc ∨ i = .xorDec) : transformOf i = maskXor := by
  obtain rfl | rfl := hi <;> rfl

theorem exec_xor_of_three {s : State} {i : Instr} (hi : i = .xorEnc ∨ i = .xorDec) (h : s.chans = 3) :
    exec i s = .next (afterXor s) := by
  rw [exec_of_three h, transformOf_xor hi, afterXor]

theorem afterXor_completedFrom (s : State) : s.completedFrom (afterXor s) :=
  (complete_transformOf_effect .xorEnc s).completedFrom

theorem dstRead_afterXor {s : State} {a : Nat} (ha : a < elements s) :
    dstRead (afterXor s) a = combine (srcRead s a) (byteOfDraw (stateAfter s.key (a + 1))) :=
  dstRead_maskXor (s := beginCommand s) ha

theorem afterXor_hidden (s : State) :
    (afterXor s).S = stateAfter s.key (elements s) ∧ (afterXor s).P = s.P ∧ (afterXor s).tables = s.tables := by
  rw [afterXor, maskXor_eq]
  exact ⟨rfl, rfl, rfl⟩

/-- Settles O16: the completed state field by field, and the fault entry for a wrong channel count. -/
theorem xorCommandsCombineTheMask : Obligations.XorCommandsCombineTheMask := by
  intro s i hi
  obtain ⟨hS, hP, htables⟩ := afterXor_hidden s
  refine ⟨fun h => ⟨afterXor s, exec_xor_of_three hi h, ?_⟩, fun h => exec_afterFault_of_not_three h i⟩
  exact ⟨fun _ ha => dstRead_afterXor ha, hS, hP, htables, afterXor_completedFrom s⟩

/-! ## Two `xor` commands in a row (R100) -/

/-- What a second `xor` command leaves of an element that the first one processed. -/
theorem dstRead_afterXor_twice {s u : State} (hsrc : (afterXor s).sourceIsResult u (elements s)) {a : Nat}
    (has : a < elements s) (hau : a < elements u) :
    dstRead (afterXor u) a = combine (combine (srcRead s a) (byteOfDraw (stateAfter s.key (a + 1))))
      (byteOfDraw (stateAfter u.key (a + 1))) := by
  rw [dstRead_afterXor hau, hsrc a has, dstRead_afterXor has]

/-- Settles O29: an element comes back exactly where the two mask bytes agree, hence everywhere with the same key. -/
theorem xorRoundTrip : Obligations.XorRoundTrip := by
  intro s i j hi hj hs
  refine ⟨afterXor s, exec_xor_of_three hi hs, fun u hu hsrc =>
    ⟨afterXor u, exec_xor_of_three hj hu, fun a has hau => ?_⟩⟩
  have hrestored : dstRead (afterXor u) a = srcRead s a ↔
      byteOfDraw (stateAfter u.key (a + 1)) = byteOfDraw (stateAfter s.key (a + 1)) := by
    rw [dstRead_afterXor_twice hsrc has hau, combine_combine_eq_self_iff]
  exact ⟨fun hkey => hrestored.mpr (by rw [hkey]), hrestored⟩

end Sys2Proof.Machine

/-! # Proofs of the family `42_permutation.md` -/

namespace Sys2Proof.Machine

/-! ## The two `swap` commands (R105, R106) -/

/-- The state in which a command completes. -/
def afterCommand (i : Instr) (s : State) : State := complete (transformOf i (beginCommand s))

theorem exec_eq_afterCommand {s : State} (h : s.chans = 3) (i : Instr) : exec i s = .next (afterCommand i s) :=
  exec_of_three h i

theorem afterCommand_completedFrom (i : Instr) (s : State) : s.completedFrom (afterCommand i s) :=
  (complete_transformOf_effect i s).completedFrom

/-- `DrawPermutation(n)` makes `n - 1` draws (R88). -/
theorem drawPermutation_snd (S : Word) (n : Nat) : (drawPermutation S n).2 = stateAfter S (n - 1) := by
  rw [drawPermutation, shuffleFrom_eq_foldl]

/-- Both directions leave `S` after the table's draws and release the table (R93, R31). -/
theorem afterCommand_swap_hidden {i : Instr} (hi : i = .swapEnc ∨ i = .swapDec) (s : State) :
    (afterCommand i s).S = stateAfter s.key (pixels s - 1) ∧
      (afterCommand i s).P = Config.freeP (afterCommand i s).tables ∧ (afterCommand i s).tables = s.tables + 1 := by
  rw [← drawPermutation_snd]
  obtain rfl | rfl := hi
  · rw [afterCommand, transformOf, permFwd_eq]
    exact ⟨rfl, rfl, rfl⟩
  · rw [afterCommand, transformOf, permInv_eq]
    exact ⟨rfl, rfl, rfl⟩

/-- The slot of a pixel's element is the same channel of the pixel that the table names. -/
theorem slot_pixelAddr (t : List Word) (p : Nat) {ch : Nat} (hch : ch < 3) :
    slot t (pixelAddr p ch) = pixelAddr (entry t p) ch := by
  have hpixel : pixelAddr p ch / 3 = p := by simp only [pixelAddr, channels]; omega
  have hchannel : pixelAddr p ch % 3 = ch := by simp only [pixelAddr, channels]; omega
  rw [slot, hpixel, hchannel]

section
variable {s : State}

/-- `SWAP.ENC` moves each element to its slot. -/
theorem dstRead_afterCommand_swapEnc {k : Nat} (hk : k < elements s) :
    dstRead (afterCommand .swapEnc s) (slot (drawnTable s) k) = srcRead s k :=
  dstRead_permFwd (s := beginCommand s) hk

/-- `SWAP.DEC` takes each element from its slot. -/
theorem dstRead_afterCommand_swapDec {k : Nat} (hk : k < elements s) :
    dstRead (afterCommand .swapDec s) k = srcRead s (slot (drawnTable s) k) :=
  dstRead_permInv (s := beginCommand s) hk

/-- `DST` pixel `P[p]` = `SRC` pixel `p` (R105). -/
theorem dstRead_swapEnc_pixel {p ch : Nat} (hp : p < pixels s) (hch : ch < 3) :
    dstRead (afterCommand .swapEnc s) (pixelAddr (entry (drawnTable s) p) ch) = srcRead s (pixelAddr p ch) := by
  rw [← slot_pixelAddr _ p hch, dstRead_afterCommand_swapEnc (pixelAddr_lt hp hch)]

/-- `DST` pixel `p` = `SRC` pixel `P[p]` (R106). -/
theorem dstRead_swapDec_pixel {p ch : Nat} (hp : p < pixels s) (hch : ch < 3) :
    dstRead (afterCommand .swapDec s) (pixelAddr p ch) = srcRead s (pixelAddr (entry (drawnTable s) p) ch) := by
  rw [dstRead_afterCommand_swapDec (pixelAddr_lt hp hch), slot_pixelAddr _ p hch]

end

/-- Settles O18: the completed state field by field, and the fault entry for a wrong channel count. -/
theorem swapEncryptScattersPixels : Obligations.SwapEncryptScattersPixels := by
  intro s
  obtain ⟨hS, hP, htables⟩ := afterCommand_swap_hidden (.inl rfl) s
  refine ⟨fun h => ⟨afterCommand .swapEnc s, exec_eq_afterCommand h _, ?_⟩, fun h => exec_afterFault_of_not_three h _⟩
  exact ⟨hS, hP, htables, fun _ _ hp hch => dstRead_swapEnc_pixel hp hch, afterCommand_completedFrom _ s⟩

/-- Settles O19: the completed state field by field, and the fault entry for a wrong channel count. -/
theorem swapDecryptGathersPixels : Obligations.SwapDecryptGathersPixels := by
  intro s
  obtain ⟨hS, hP, htables⟩ := afterCommand_swap_hidden (.inr rfl) s
  refine ⟨fun h => ⟨afterCommand .swapDec s, exec_eq_afterCommand h _, ?_⟩, fun h => exec_afterFault_of_not_three h _⟩
  exact ⟨hS, hP, htables, fun _ _ hp hch => dstRead_swapDec_pixel hp hch, afterCommand_completedFrom _ s⟩

/-! ## The positional inverse (R107) -/

/-- `Q[d]`: the position at which a table holds `d`. -/
def positionOf (t : List Word) (d : Nat) : Nat := (t.map BitVec.toNat).idxOf d

section
variable {t : List Word} {n : Nat} (ht : isPermutation t n)
include ht

theorem positionOf_lt {d : Nat} (hd : d < n) : positionOf t d < n := by
  have hlt := List.idxOf_lt_length_of_mem (ht.mem_iff.mpr (List.mem_range.mpr hd))
  rwa [ht.length_eq, List.length_range] at hlt

theorem entry_positionOf {d : Nat} (hd : d < n) : entry t (positionOf t d) = d := by
  have hlt : positionOf t d < t.length := (positionOf_lt ht hd).trans_eq (isPermutation_length ht).symm
  rw [entry_eq hlt, ← List.getElem_map BitVec.toNat (h := by rwa [List.length_map])]
  exact List.getElem_idxOf _

theorem positionOf_entry {i : Nat} (hi : i < n) : positionOf t (entry t i) = i :=
  entry_injective ht (positionOf_lt ht (entry_lt ht hi)) hi (entry_positionOf ht (entry_lt ht hi))

theorem positionOf_injective {d d' : Nat} (hd : d < n) (hd' : d' < n) (h : positionOf t d = positionOf t d') :
    d = d' := by
  rw [← entry_positionOf ht hd, h, entry_positionOf ht hd']

end

/-- Settles O20: each command in terms of `Q` is its own equation at the pixel `Q[d]`, since `P[Q[d]] = d`. -/
theorem swapCommandsUseThePositionalInverse : Obligations.SwapCommandsUseThePositionalInverse := by
  intro s h
  have ht := drawnTable_isPermutation s
  refine ⟨positionOf (drawnTable s), _, _, exec_eq_afterCommand h .swapEnc, exec_eq_afterCommand h .swapDec,
    fun _ hi => positionOf_entry ht hi, fun _ hd => ⟨positionOf_lt ht hd, entry_positionOf ht hd⟩,
    fun _ _ hd hd' => positionOf_injective ht hd hd', fun d ch hd hch => ?_, fun d ch hd hch => ?_⟩
  · have henc := dstRead_swapEnc_pixel (positionOf_lt ht hd) hch
    rwa [entry_positionOf ht hd] at henc
  · have hdec := dstRead_swapDec_pixel (positionOf_lt ht hd) hch
    rwa [entry_positionOf ht hd] at hdec

/-! ## Two `swap` commands in a row (R108) -/

section
variable {s u : State} (hkey : u.key = s.key) (hpixels : pixels u = pixels s)
include hkey hpixels

/-- Both commands draw the same table when KEY and the pixel count are unchanged (R90, R92). -/
theorem drawnTable_congr : drawnTable u = drawnTable s := by
  rw [drawnTable, drawnTable, hkey, hpixels]

theorem swapDec_undoes_swapEnc (hsrc : (afterCommand .swapEnc s).sourceIsResult u (elements s)) {a : Nat}
    (ha : a < elements s) : dstRead (afterCommand .swapDec u) a = srcRead s a :=
  gatherPixels_undoes_scatterPixels (s := buildTable (beginCommand s)) (u := buildTable (beginCommand u)) hpixels
    (drawnTable_isPermutation s) (drawnTable_congr hkey hpixels) hsrc ha

theorem swapEnc_undoes_swapDec (hsrc : (afterCommand .swapDec s).sourceIsResult u (elements s)) {a : Nat}
    (ha : a < elements s) : dstRead (afterCommand .swapEnc u) a = srcRead s a :=
  scatterPixels_undoes_gatherPixels (s := buildTable (beginCommand s)) (u := buildTable (beginCommand u)) hpixels
    (drawnTable_isPermutation s) (drawnTable_congr hkey hpixels) hsrc ha

/-- `SWAP.ENC` twice applies `P` twice. -/
theorem dstRead_swapEnc_twice (hsrc : (afterCommand .swapEnc s).sourceIsResult u (elements s)) {a : Nat}
    (ha : a < elements s) :
    dstRead (afterCommand .swapEnc u) (slot (drawnTable s) (slot (drawnTable s) a)) = srcRead s a := by
  have hslot : slot (drawnTable s) a < elements s := slot_lt (drawnTable_isPermutation s) ha
  have hslotU : slot (drawnTable s) a < elements u := by rwa [elements_eq, hpixels]
  have hsecond := dstRead_afterCommand_swapEnc hslotU
  rw [drawnTable_congr hkey hpixels] at hsecond
  rw [hsecond, hsrc _ hslot, dstRead_afterCommand_swapEnc ha]

end

/-- The example of R105: key 5, 2 by 2, where `P = [1, 3, 2, 0]`, with twelve different elements. -/
def threeCycleState : State :=
  { State.reset with
    key := 5, rows := 2, cols := 2, chans := 3
    src := (List.range 12).map fun a => (a, BitVec.ofNat 8 (10 * a)) }

/-- The state after the hand-over of the first result (R143). -/
def threeCycleHandOver : State :=
  { threeCycleState with src := (afterCommand .swapEnc threeCycleState).dst }

theorem threeCycle_sourceIsResult :
    (afterCommand .swapEnc threeCycleState).sourceIsResult threeCycleHandOver (elements threeCycleState) := by
  unfold State.sourceIsResult
  decide

/-- `P` sends pixel 0 to 1 and 1 to 3, so after two `SWAP.ENC` address 9, the red of pixel 3, holds the red of pixel 0. -/
theorem swapEnc_twice_does_not_restore :
    dstRead (afterCommand .swapEnc threeCycleHandOver) 9 ≠ srcRead threeCycleState 9 := by
  have htwice := dstRead_swapEnc_twice (s := threeCycleState) (u := threeCycleHandOver) rfl rfl
    threeCycle_sourceIsResult (by decide : 0 < elements threeCycleState)
  have hslots : slot (drawnTable threeCycleState) (slot (drawnTable threeCycleState) 0) = 9 := by decide
  rw [hslots] at htwice
  rw [htwice]
  decide

/-- Settles O30: both orders restore the source, and twice `SWAP.ENC` fails to in the example of R105. -/
theorem swapRoundTrip : Obligations.SwapRoundTrip := by
  constructor
  · intro s i j hij hs
    refine ⟨afterCommand i s, exec_eq_afterCommand hs i, fun u hu hkey hpixels hsrc =>
      ⟨afterCommand j u, exec_eq_afterCommand hu j, fun a ha => ?_⟩⟩
    obtain ⟨rfl, rfl⟩ | ⟨rfl, rfl⟩ := hij
    · exact swapDec_undoes_swapEnc hkey hpixels hsrc ha
    · exact swapEnc_undoes_swapDec hkey hpixels hsrc ha
  · exact ⟨threeCycleState, _, threeCycleHandOver, _, rfl, exec_eq_afterCommand rfl _, rfl, rfl, rfl, rfl,
      threeCycle_sourceIsResult, exec_eq_afterCommand rfl _, 9, by decide, swapEnc_twice_does_not_restore⟩

end Sys2Proof.Machine

/-! # Proofs of the family `43_modular.md` -/

namespace Sys2Proof.Machine

/-! ## The key offset (R119) -/

/-- The signed and the unsigned reading of KEY differ by 0 or 2^32, a multiple of 256. -/
theorem keyOffset_eq (key : Word) : keyOffset key = (key.toNat % 256 : Nat) := by
  rw [keyOffset, modulus, BitVec.toInt_eq_toNat_cond]
  split <;> omega

theorem keyOffset_eq_lowByte (key : Word) : keyOffset key = (key.setWidth 8).toNat := by
  rw [keyOffset_eq, BitVec.toNat_setWidth]

/-- Keys that agree in their low byte have the same key offset (R122). -/
theorem keyOffset_congr {key key' : Word} (h : key'.setWidth 8 = key.setWidth 8) : keyOffset key' = keyOffset key := by
  rw [keyOffset_eq_lowByte, h, keyOffset_eq_lowByte]

/-- Settles O21: `KEY[7:0]` is the unsigned reading modulo 256; the three keys are evaluated. -/
theorem keyOffsetIsTheLowByte : Obligations.KeyOffsetIsTheLowByte := by
  refine ⟨fun key => ⟨rfl, ?_⟩, by decide, by decide, by decide⟩
  rw [keyOffset_eq, BitVec.extractLsb'_toNat, Nat.shiftRight_zero]

/-! ## The position offsets (R124) -/

theorem posOffset_eq (r c : Nat) : posOffset r c = 13 * (r + c) := mul_comm _ _

/-- The position offset modulo 256 depends on `(r + c) mod 256` only (R120). -/
theorem posOffset_emod (r c : Nat) : posOffset r c % 256 = 13 * (((r : Int) + c) % 256) % 256 := by
  rw [posOffset_eq]
  omega

/-- `197 * 13 = 2561 = 10 * 256 + 1`: multiplying by 197 gives the sum back. -/
theorem posOffset_mul_inverse (r c : Nat) : 197 * (posOffset r c % 256) % 256 = ((r : Int) + c) % 256 := by
  rw [posOffset_eq]
  omega

/-- `t -> 13 * t` is injective modulo 256, since 13 has an inverse. -/
theorem posOffset_emod_eq_iff (r c r' c' : Nat) :
    posOffset r c % 256 = posOffset r' c' % 256 ↔ ((r : Int) + c) % 256 = ((r' : Int) + c') % 256 := by
  constructor
  · intro h
    rw [← posOffset_mul_inverse, h, posOffset_mul_inverse]
  · intro h
    rw [posOffset_emod, h, posOffset_emod]

/-- Settles O23: the table is evaluated; equal offsets are equal sums since 13 is invertible modulo 256. -/
theorem positionOffsetsRepeatWithPeriod256 : Obligations.PositionOffsetsRepeatWithPeriod256 := by
  refine ⟨by decide, fun r c r' c' => ?_⟩
  rw [posOffset_emod_eq_iff]
  omega

/-! ## One element (R117, R118, R120) -/

/-- A reduced integer is narrowed without loss. -/
theorem narrow_emod_toNat (x : Int) : ((narrow (x % modulus)).toNat : Int) = x % 256 := by
  rw [narrow, modulus, BitVec.toNat_ofInt]
  omega

section
variable (key : Word) (r c : Nat) (v : Byte)

/-- The forward element with the two reductions of R117. -/
theorem modFwdElement_toNat :
    ((modFwdElement key r c v).toNat : Int) = ((v.toNat + keyOffset key) % 256 + posOffset r c) % 256 :=
  narrow_emod_toNat _

/-- The inverse element with the two reductions of R118. -/
theorem modInvElement_toNat :
    ((modInvElement key r c v).toNat : Int) = ((v.toNat - posOffset r c) % 256 - keyOffset key) % 256 :=
  narrow_emod_toNat _

theorem modFwdElement_toNat_collapsed :
    ((modFwdElement key r c v).toNat : Int) = (v.toNat + keyOffset key + posOffset r c) % 256 := by
  rw [modFwdElement_toNat, Int.emod_add_emod]

theorem modInvElement_toNat_collapsed :
    ((modInvElement key r c v).toNat : Int) = (v.toNat - keyOffset key - posOffset r c) % 256 := by
  rw [modInvElement_toNat, Int.emod_sub_emod, sub_right_comm]

end

/-- Settles O22: the first of the two reductions is absorbed by the second. -/
theorem modularCollapsedForms : Obligations.ModularCollapsedForms := by
  refine ⟨fun key r c v => ⟨?_, ?_⟩, posOffset_emod⟩
  · rw [modFwdElement_toNat_collapsed, keyOffset_eq, posOffset_eq]
  · rw [modInvElement_toNat_collapsed, keyOffset_eq, posOffset_eq]

/-! ## Elements under keys with the same low byte (R122) -/

section
variable {key key' : Word} (hkey : key'.setWidth 8 = key.setWidth 8)
include hkey

theorem modFwdElement_congr : modFwdElement key' = modFwdElement key := by
  funext r c v
  rw [modFwdElement, keyOffset_congr hkey, modFwdElement]

theorem modInvElement_congr : modInvElement key' = modInvElement key := by
  funext r c v
  rw [modInvElement, keyOffset_congr hkey, modInvElement]

/-- `(v + k8 + 13 (r + c) - k8 - 13 (r + c)) mod 256 = v`. -/
theorem modInvElement_modFwdElement (r c : Nat) (v : Byte) :
    modInvElement key' r c (modFwdElement key r c v) = v := by
  apply BitVec.eq_of_toNat_eq
  have hinv := modInvElement_toNat_collapsed key r c (modFwdElement key r c v)
  rw [modFwdElement_toNat_collapsed] at hinv
  rw [modInvElement_congr hkey]
  omega

/-- `(v - k8 - 13 (r + c) + k8 + 13 (r + c)) mod 256 = v`. -/
theorem modFwdElement_modInvElement (r c : Nat) (v : Byte) :
    modFwdElement key' r c (modInvElement key r c v) = v := by
  apply BitVec.eq_of_toNat_eq
  have hfwd := modFwdElement_toNat_collapsed key r c (modInvElement key r c v)
  rw [modInvElement_toNat_collapsed] at hfwd
  rw [modFwdElement_congr hkey]
  omega

/-- The forward element of a forward element has each offset added twice. -/
theorem modFwdElement_twice_toNat (r c : Nat) (v : Byte) :
    ((modFwdElement key' r c (modFwdElement key r c v)).toNat : Int) =
      (v.toNat + 2 * keyOffset key + 2 * posOffset r c) % 256 := by
  rw [modFwdElement_congr hkey, modFwdElement_toNat_collapsed, modFwdElement_toNat_collapsed]
  omega

end

/-! ## The loops over rows, columns and channels -/

section
variable {f g : Nat → Nat → Byte → Byte} {s u : State}

/-- The element at an address, through the row and the column of its pixel (R43). -/
theorem dstRead_mapElements {a : Nat} (ha : a < elements s) :
    dstRead (mapElements f s) a = f (rowOf s.cols.toNat (a / 3)) (colOf s.cols.toNat (a / 3)) (srcRead s a) :=
  dstRead_writeSeq (congrArg State.dst (mapElements_eq f s)) (fun _ _ _ _ h => h) ha

theorem addr_lt_elements {r c ch : Nat} (hr : r < s.rows.toNat) (hc : c < s.cols.toNat) (hch : ch < 3) :
    addr s.cols.toNat r c ch < elements s :=
  pixelAddr_lt (pix_lt hr hc) hch

/-- The element at a row, a column and a channel. -/
theorem dstRead_mapElements_addr {r c ch : Nat} (hr : r < s.rows.toNat) (hc : c < s.cols.toNat) (hch : ch < 3) :
    dstRead (mapElements f s) (addr s.cols.toNat r c ch) = f r c (srcRead s (addr s.cols.toNat r c ch)) := by
  have hpixel : addr s.cols.toNat r c ch / 3 = pix s.cols.toNat r c := by simp only [addr, pixelAddr, channels]; omega
  rw [dstRead_mapElements (addr_lt_elements hr hc hch), hpixel, rowOf_pix hc, colOf_pix hc]

theorem mapElements_hidden :
    (mapElements f s).S = s.S ∧ (mapElements f s).P = s.P ∧ (mapElements f s).tables = s.tables := by
  rw [mapElements_eq]
  exact ⟨rfl, rfl, rfl⟩

/-- Only the shape and the elements of the buffer enter (R123). -/
theorem dstRead_mapElements_congr (hrows : u.rows = s.rows) (hcols : u.cols = s.cols)
    (hsrc : ∀ a, a < elements s → srcRead u a = srcRead s a) {a : Nat} (ha : a < elements s) :
    dstRead (mapElements f u) a = dstRead (mapElements f s) a := by
  have hau : a < elements u := by rwa [elements_congr hrows hcols]
  rw [dstRead_mapElements hau, dstRead_mapElements ha, hcols, hsrc a ha]

/-- A pass whose element function undoes the first one's restores every element that both process, whatever
ROWS is: COLS alone determines the row and the column of an address (R122). -/
theorem mapElements_undoes_mapElements (hcols : u.cols = s.cols) (hundo : ∀ r c v, g r c (f r c v) = v)
    (hsrc : (mapElements f s).sourceIsResult u (elements s)) {a : Nat} (has : a < elements s) (hau : a < elements u) :
    dstRead (mapElements g u) a = srcRead s a := by
  rw [dstRead_mapElements hau, hcols, hsrc a has, dstRead_mapElements has, hundo]

end

/-! ## The two `math` commands (R117, R118) -/

theorem dstRead_mathEnc_addr {s : State} {r c ch : Nat} (hr : r < s.rows.toNat) (hc : c < s.cols.toNat) (hch : ch < 3) :
    dstRead (afterCommand .mathEnc s) (addr s.cols.toNat r c ch) =
      modFwdElement s.key r c (srcRead s (addr s.cols.toNat r c ch)) :=
  dstRead_mapElements_addr (s := beginCommand s) hr hc hch

theorem dstRead_mathDec_addr {s : State} {r c ch : Nat} (hr : r < s.rows.toNat) (hc : c < s.cols.toNat) (hch : ch < 3) :
    dstRead (afterCommand .mathDec s) (addr s.cols.toNat r c ch) =
      modInvElement s.key r c (srcRead s (addr s.cols.toNat r c ch)) :=
  dstRead_mapElements_addr (s := beginCommand s) hr hc hch

/-- Settles O24: the completed state field by field, and the fault entry for a wrong channel count. -/
theorem mathEncryptAddsOffsets : Obligations.MathEncryptAddsOffsets := by
  intro s
  obtain ⟨hS, hP, htables⟩ := mapElements_hidden (f := modFwdElement s.key) (s := beginCommand s)
  refine ⟨fun h => ⟨afterCommand .mathEnc s, exec_eq_afterCommand h _, fun r c ch hr hc hch => ?_, hS, hP, htables,
    afterCommand_completedFrom _ s⟩, fun h => exec_afterFault_of_not_three h _⟩
  have helement := modFwdElement_toNat s.key r c (srcRead s (addr s.cols.toNat r c ch))
  rw [← dstRead_mathEnc_addr hr hc hch] at helement
  exact helement

/-- Settles O25: the completed state field by field, and the fault entry for a wrong channel count. -/
theorem mathDecryptSubtractsOffsets : Obligations.MathDecryptSubtractsOffsets := by
  intro s
  obtain ⟨hS, hP, htables⟩ := mapElements_hidden (f := modInvElement s.key) (s := beginCommand s)
  refine ⟨fun h => ⟨afterCommand .mathDec s, exec_eq_afterCommand h _, fun r c ch hr hc hch => ?_, hS, hP, htables,
    afterCommand_completedFrom _ s⟩, fun h => exec_afterFault_of_not_three h _⟩
  have helement := modInvElement_toNat s.key r c (srcRead s (addr s.cols.toNat r c ch))
  rw [← dstRead_mathDec_addr hr hc hch] at helement
  exact helement

/-! ## Two `math` commands in a row (R122), and what one depends on (R123) -/

section
variable {s u : State} (hkey : u.key.setWidth 8 = s.key.setWidth 8) (hcols : u.cols = s.cols)
include hkey hcols

theorem mathDec_undoes_mathEnc (hsrc : (afterCommand .mathEnc s).sourceIsResult u (elements s)) {a : Nat}
    (has : a < elements s) (hau : a < elements u) : dstRead (afterCommand .mathDec u) a = srcRead s a :=
  mapElements_undoes_mapElements (s := beginCommand s) (u := beginCommand u) hcols (modInvElement_modFwdElement hkey)
    hsrc has hau

theorem mathEnc_undoes_mathDec (hsrc : (afterCommand .mathDec s).sourceIsResult u (elements s)) {a : Nat}
    (has : a < elements s) (hau : a < elements u) : dstRead (afterCommand .mathEnc u) a = srcRead s a :=
  mapElements_undoes_mapElements (s := beginCommand s) (u := beginCommand u) hcols (modFwdElement_modInvElement hkey)
    hsrc has hau

/-- `MATH.ENC` twice adds each offset twice. -/
theorem dstRead_mathEnc_twice (hsrc : (afterCommand .mathEnc s).sourceIsResult u (elements s)) {r c ch : Nat}
    (hrs : r < s.rows.toNat) (hru : r < u.rows.toNat) (hc : c < s.cols.toNat) (hch : ch < 3) :
    ((dstRead (afterCommand .mathEnc u) (addr s.cols.toNat r c ch)).toNat : Int) =
      ((srcRead s (addr s.cols.toNat r c ch)).toNat + 2 * keyOffset s.key + 2 * posOffset r c) % 256 := by
  have hsecond := dstRead_mathEnc_addr hru (hcols ▸ hc) hch
  rw [hcols, hsrc _ (addr_lt_elements hrs hc hch), dstRead_mathEnc_addr hrs hc hch] at hsecond
  rw [hsecond, modFwdElement_twice_toNat hkey]

variable (hrows : u.rows = s.rows) (hsrc : ∀ a, a < elements s → srcRead u a = srcRead s a)
include hrows hsrc

theorem dstRead_math_congr {i : Instr} (hi : i ∈ [Instr.mathEnc, .mathDec]) {a : Nat} (ha : a < elements s) :
    dstRead (afterCommand i u) a = dstRead (afterCommand i s) a := by
  simp only [List.mem_cons, List.not_mem_nil, or_false] at hi
  obtain rfl | rfl := hi
  · show dstRead (mapElements (modFwdElement u.key) (beginCommand u)) a = _
    rw [modFwdElement_congr hkey]
    exact dstRead_mapElements_congr (s := beginCommand s) (u := beginCommand u) hrows hcols hsrc ha
  · show dstRead (mapElements (modInvElement u.key) (beginCommand u)) a = _
    rw [modInvElement_congr hkey]
    exact dstRead_mapElements_congr (s := beginCommand s) (u := beginCommand u) hrows hcols hsrc ha

end

/-- Settles O31: both orders restore the source element by element; `MATH.ENC` twice is the collapsed form twice. -/
theorem mathRoundTrip : Obligations.MathRoundTrip := by
  constructor
  · intro s i j hij hs
    refine ⟨afterCommand i s, exec_eq_afterCommand hs i, fun u hu hkey hcols hsrc =>
      ⟨afterCommand j u, exec_eq_afterCommand hu j, fun a has hau => ?_⟩⟩
    obtain ⟨rfl, rfl⟩ | ⟨rfl, rfl⟩ := hij
    · exact mathDec_undoes_mathEnc hkey hcols hsrc has hau
    · exact mathEnc_undoes_mathDec hkey hcols hsrc has hau
  · intro s hs
    refine ⟨_, exec_eq_afterCommand hs _, fun u hu hkey hcols hsrc =>
      ⟨_, exec_eq_afterCommand hu _, fun r c ch hrs hru hc hch => ?_⟩⟩
    rw [← keyOffset_eq, ← posOffset_eq]
    exact dstRead_mathEnc_twice hkey hcols hsrc hrs hru hc hch

/-- Settles O35: both runs complete, with the same STATUS and, element by element, the same DST. -/
theorem mathDependsOnLowKeyByteAndShape : Obligations.MathDependsOnLowKeyByteAndShape := by
  intro s u i hi hkey hchans hthree hrows hcols hsrc
  refine ⟨_, _, exec_eq_afterCommand hthree i, exec_eq_afterCommand (hchans.trans hthree) i, ?_,
    fun a ha => dstRead_math_congr hkey hcols hrows hsrc hi ha⟩
  obtain ⟨hstatusU, -⟩ := afterCommand_completedFrom i u
  obtain ⟨hstatusS, -⟩ := afterCommand_completedFrom i s
  rw [hstatusU, hstatusS]

end Sys2Proof.Machine

/-! # Proofs of the family `44_channel.md` -/

namespace Sys2Proof.Machine

/-! ## The address a rotation reads from -/

/-- The address that a rotation by `d` channels reads for element `k`: the same pixel, `d` channels on (R129, R130). -/
def rotatedAddr (d k : Nat) : Nat := pixelAddr (k / 3) ((k % 3 + d) % 3)

theorem rotatedAddr_lt (d : Nat) {k n : Nat} (hk : k < 3 * n) : rotatedAddr d k < 3 * n :=
  pixelAddr_lt (by omega) (by omega)

theorem rotatedAddr_pixelAddr (d p : Nat) {ch : Nat} (hch : ch < 3) :
    rotatedAddr d (pixelAddr p ch) = pixelAddr p ((ch + d) % 3) := by
  simp only [rotatedAddr, pixelAddr, channels]
  omega

/-- Rotations add up. -/
theorem rotatedAddr_rotatedAddr (d e k : Nat) : rotatedAddr e (rotatedAddr d k) = rotatedAddr (e + d) k := by
  simp only [rotatedAddr, pixelAddr, channels]
  omega

/-- The order of the rotation is three (R132). -/
theorem rotatedAddr_three_mul (d k : Nat) : rotatedAddr (3 * d) k = k := by
  simp only [rotatedAddr, pixelAddr, channels]
  omega

/-! ## The two `channel` commands (R129, R130) -/

/-- The command leaves in each element of the buffer the source element `d` channels on. -/
def RotatesBy (i : Instr) (d : Nat) : Prop :=
  ∀ s a, a < elements s → dstRead (afterCommand i s) a = srcRead s (rotatedAddr d a)

theorem channelEnc_rotatesBy : RotatesBy .channelEnc 2 := fun s _ ha =>
  dstRead_writeSeq (congrArg State.dst (chanFwd_eq (beginCommand s))) (fun _ _ _ _ h => h) ha

theorem channelDec_rotatesBy : RotatesBy .channelDec 1 := fun s _ ha =>
  dstRead_writeSeq (congrArg State.dst (chanInv_eq (beginCommand s))) (fun _ _ _ _ h => h) ha

/-- Neither direction touches `S`, `P` or the counter of the tables (R93). -/
theorem afterCommand_channel_hidden {i : Instr} (hi : i = .channelEnc ∨ i = .channelDec) (s : State) :
    (afterCommand i s).S = s.S ∧ (afterCommand i s).P = s.P ∧ (afterCommand i s).tables = s.tables := by
  obtain rfl | rfl := hi
  · rw [afterCommand, transformOf, chanFwd_eq]
    exact ⟨rfl, rfl, rfl⟩
  · rw [afterCommand, transformOf, chanInv_eq]
    exact ⟨rfl, rfl, rfl⟩

section
variable {i : Instr} {d : Nat} (h : RotatesBy i d)
include h

/-- Channel `ch` of a pixel takes the same pixel's channel `ch + d` modulo 3. -/
theorem RotatesBy.pixel {s : State} {p ch : Nat} (hp : p < pixels s) (hch : ch < 3) :
    dstRead (afterCommand i s) (pixelAddr p ch) = srcRead s (pixelAddr p ((ch + d) % 3)) := by
  rw [h s _ (pixelAddr_lt hp hch), rotatedAddr_pixelAddr d p hch]

/-- A rotation of a source that is itself the buffer of `s` rotated by `e`. -/
theorem RotatesBy.of_rotated {s u : State} {e : Nat}
    (hsrc : ∀ a, a < elements s → srcRead u a = srcRead s (rotatedAddr e a)) {a : Nat} (has : a < elements s)
    (hau : a < elements u) :
    dstRead (afterCommand i u) a = srcRead s (rotatedAddr (e + d) a) := by
  rw [h u a hau, hsrc _ (rotatedAddr_lt d has), rotatedAddr_rotatedAddr]

/-- The hand-over of the command's result makes the source a rotated buffer. -/
theorem RotatesBy.srcRead_handOver {s u : State} (hsrc : (afterCommand i s).sourceIsResult u (elements s)) {a : Nat}
    (ha : a < elements s) : srcRead u a = srcRead s (rotatedAddr d a) := by
  rw [hsrc a ha, h s a ha]

/-- Rotations that differ by whole turns are the same. -/
theorem RotatesBy.add_three : RotatesBy i (d + 3) := by
  intro s a ha
  rw [h s a ha, rotatedAddr, rotatedAddr, ← Nat.add_assoc, Nat.add_mod_right]

end

/-- Settles O26: the completed state field by field, and the fault entry for a wrong channel count. -/
theorem channelEncryptRotates : Obligations.ChannelEncryptRotates := by
  intro s
  obtain ⟨hS, hP, htables⟩ := afterCommand_channel_hidden (.inl rfl) s
  have hpixel := fun p ch (hp : p < pixels s) (hch : ch < 3) => channelEnc_rotatesBy.pixel hp hch
  exact ⟨fun h => ⟨_, exec_eq_afterCommand h _,
    fun p hp => ⟨hpixel p 0 hp (by decide), hpixel p 1 hp (by decide), hpixel p 2 hp (by decide)⟩,
    hS, hP, htables, afterCommand_completedFrom _ s⟩, fun h => exec_afterFault_of_not_three h _⟩

/-- Settles O27: the completed state field by field, and the fault entry for a wrong channel count. -/
theorem channelDecryptRotates : Obligations.ChannelDecryptRotates := by
  intro s
  obtain ⟨hS, hP, htables⟩ := afterCommand_channel_hidden (.inr rfl) s
  have hpixel := fun p ch (hp : p < pixels s) (hch : ch < 3) => channelDec_rotatesBy.pixel hp hch
  exact ⟨fun h => ⟨_, exec_eq_afterCommand h _,
    fun p hp => ⟨hpixel p 0 hp (by decide), hpixel p 1 hp (by decide), hpixel p 2 hp (by decide)⟩,
    hS, hP, htables, afterCommand_completedFrom _ s⟩, fun h => exec_afterFault_of_not_three h _⟩

/-! ## Channel commands in a row (R131, R132), and what one depends on (R128) -/

/-- Of two opposite directions, each rotates by twice what the other one does. -/
theorem opposite_rotatesBy {i j : Instr}
    (hij : (i = .channelEnc ∧ j = .channelDec) ∨ (i = .channelDec ∧ j = .channelEnc)) :
    ∃ d, RotatesBy i d ∧ RotatesBy j (d + d) := by
  obtain ⟨rfl, rfl⟩ | ⟨rfl, rfl⟩ := hij
  · exact ⟨2, channelEnc_rotatesBy, channelDec_rotatesBy.add_three⟩
  · exact ⟨1, channelDec_rotatesBy, channelEnc_rotatesBy⟩

theorem channel_rotatesBy {i : Instr} (hi : i ∈ [Instr.channelEnc, .channelDec]) : ∃ d, RotatesBy i d := by
  simp only [List.mem_cons, List.not_mem_nil, or_false] at hi
  obtain rfl | rfl := hi
  · exact ⟨2, channelEnc_rotatesBy⟩
  · exact ⟨1, channelDec_rotatesBy⟩

/-- Settles O28: with `i` rotating by `d`, two of them rotate by `d + d`, as `j` does, and three by whole turns. -/
theorem channelRotationHasOrderThree : Obligations.ChannelRotationHasOrderThree := by
  intro s i j hij hs
  obtain ⟨d, hi, hj⟩ := opposite_rotatesBy hij
  refine ⟨_, _, exec_eq_afterCommand hs i, exec_eq_afterCommand hs j, fun u hu hpixelsU hsrcU => ?_⟩
  have htwice : ∀ a, a < elements s → dstRead (afterCommand i u) a = srcRead s (rotatedAddr (d + d) a) := fun a ha =>
    hi.of_rotated (fun _ => hi.srcRead_handOver hsrcU) ha (by rwa [elements_eq, hpixelsU])
  refine ⟨_, exec_eq_afterCommand hu i, fun a ha => (htwice a ha).trans (hj s a ha).symm,
    fun x hx hpixelsX hsrcX => ⟨_, exec_eq_afterCommand hx i, fun a ha => ?_⟩⟩
  have hsrcRotated : ∀ a, a < elements s → srcRead x a = srcRead s (rotatedAddr (d + d) a) := fun a ha =>
    (hsrcX a ha).trans (htwice a ha)
  rw [hi.of_rotated hsrcRotated ha (by rwa [elements_eq, hpixelsX]), show d + d + d = 3 * d by omega,
    rotatedAddr_three_mul]

/-- Settles O32: the two rotations add up to whole turns, on every element that both commands process. -/
theorem channelRoundTrip : Obligations.ChannelRoundTrip := by
  intro s i j hij hs
  obtain ⟨d, hi, hj⟩ := opposite_rotatesBy hij
  refine ⟨_, exec_eq_afterCommand hs i, fun u hu hsrc => ⟨_, exec_eq_afterCommand hu j, fun a has hau => ?_⟩⟩
  rw [hj.of_rotated (fun _ => hi.srcRead_handOver hsrc) has hau, show d + (d + d) = 3 * d by omega,
    rotatedAddr_three_mul]

/-- Settles O36: both runs complete, with the same STATUS, and rotate the same source elements. -/
theorem channelIgnoresTheKey : Obligations.ChannelIgnoresTheKey := by
  intro s u i hi hchans hthree hpixels hsrc
  obtain ⟨d, hrot⟩ := channel_rotatesBy hi
  refine ⟨_, _, exec_eq_afterCommand hthree i, exec_eq_afterCommand (hchans.trans hthree) i, ?_, fun a ha => ?_⟩
  · exact (complete_transformOf_effect i u).status.trans (complete_transformOf_effect i s).status.symm
  · have hau : a < elements u := by rwa [elements_eq, hpixels]
    rw [hrot u a hau, hsrc _ (rotatedAddr_lt d ha), hrot s a ha]

end Sys2Proof.Machine

/-! # Proofs of the family `45_dispatcher.md` -/

namespace Sys2Proof.Machine

/-! ## STATUS through a command (R136, R154) -/

theorem statusBusy_statusOfOutcome (o : CommandOutcome) : statusBusy (statusOfOutcome o) = 0 := by
  cases o with
  | completed => decide
  | faulted c => cases c <;> decide

theorem statusDone_statusOfOutcome (o : CommandOutcome) : statusDone (statusOfOutcome o) = 1 := by
  cases o with
  | completed => decide
  | faulted c => cases c <;> decide

/-- Settles O37: every command has the effect of some outcome, which is recorded and which STATUS tells. -/
theorem everyCommandEnds : Obligations.EveryCommandEnds := by
  intro i s
  obtain ⟨o, t, ht, heffect⟩ := exec_effect i s
  refine ⟨t, ht, ?_, ?_, ?_⟩
  · rw [heffect.outcomes]
    exact List.cons_ne_nil o s.outcomes
  · rw [heffect.status, statusBusy_statusOfOutcome]
  · rw [heffect.status, statusDone_statusOfOutcome]

/-- Settles O40: each of the three words is packed from the four fields, and a packed word gives them back. -/
theorem statusFieldsThroughACommand : Obligations.StatusFieldsThroughACommand := by
  intro s c
  refine ⟨?_, ?_, ?_, rfl, rfl⟩ <;>
    exact ⟨statusBusy_pack .., statusDone_pack .., statusErr_pack .., statusCause_pack ..⟩

/-! ## Host accesses to the buffers (R142) -/

theorem step_writeDst {s : State} {a : Nat} {v : Byte} {rest : List HostAction} (hp : s.pending = .writeDst a v :: rest)
    (ha : a < Config.bufCapacity) : step s = .next (dstWrite a v { s with pending := rest }) := by
  rw [step_action hp]
  exact atElement_of_lt ha _

theorem step_readSrc {s : State} {a : Nat} {rest : List HostAction} (hp : s.pending = .readSrc a :: rest)
    (ha : a < Config.bufCapacity) :
    step s = .next { s with pending := rest, replies := .element (srcRead s a) :: s.replies } := by
  rw [step_action hp]
  exact atElement_of_lt ha _

/-- Settles O44: the step is one memory write, and a read after a write returns the byte at its address alone. -/
theorem bufferWrites : Obligations.BufferWrites := fun s a v rest ha =>
  ⟨fun hp => ⟨s.src.write a v, step_writeSrc hp ha, fun b => srcRead_srcWrite a b v { s with pending := rest }⟩,
    fun hp => ⟨s.dst.write a v, step_writeDst hp ha, fun b => dstRead_dstWrite a b v { s with pending := rest }⟩⟩

/-- Settles O45: the element exists, so the step is its read. -/
theorem bufferReads : Obligations.BufferReads := fun _ _ _ ha =>
  ⟨fun hp => step_readSrc hp ha, fun hp => step_readDst hp ha⟩

/-! ## Host accesses to the registers (R27, R142) -/

theorem step_writeReg {s : State} {n : Nat} {w : Word} {rest : List HostAction} (hp : s.pending = .writeReg n w :: rest)
    (hn : n ≠ 4) : step s = .next (regWrite n w { s with pending := rest }) := by
  rw [step_action hp, perform_writeReg hn]

theorem step_readReg {s : State} {n : Nat} {rest : List HostAction} (hp : s.pending = .readReg n :: rest) :
    step s = .next { s with pending := rest, replies := .word (regRead n s) :: s.replies } := by
  rw [step_action hp]
  rfl

/-- A word modulo `2 ^ k` is its low `k` bits: what a register of `k` bits keeps of it. -/
theorem ofNat_toNat_mod_eq_extractLsb' (k : Nat) (w : Word) :
    BitVec.ofNat k (w.toNat % 2 ^ k) = w.extractLsb' 0 k := by
  apply BitVec.eq_of_toNat_eq
  rw [BitVec.extractLsb'_toNat, BitVec.toNat_ofNat, Nat.shiftRight_zero, Nat.mod_mod]

/-- Settles O42: the write is `regWrite`, which stores the low bits of the word in the register of that number. -/
theorem registerWrites : Obligations.RegisterWrites := by
  intro s n w rest hp
  have hlow16 : BitVec.ofNat 16 (w.toNat % 65536) = w.extractLsb' 0 16 := ofNat_toNat_mod_eq_extractLsb' 16 w
  have hlow8 : BitVec.ofNat 8 (w.toNat % 256) = w.extractLsb' 0 8 := ofNat_toNat_mod_eq_extractLsb' 8 w
  rw [hlow16, hlow8]
  refine ⟨?key, ?rows, ?cols, ?chans, ?statusOrMissing⟩
  case key | rows | cols | chans =>
    rintro rfl
    exact step_writeReg hp (by decide)
  case statusOrMissing =>
    rintro (rfl | hn)
    · exact step_writeReg hp (by decide)
    · rw [step_writeReg hp (by omega), regWrite_missing hn]

/-- The bits of STATUS that belong to a field are 2:0 and 11:8 (R22). -/
theorem statusFields_getLsbD (b : Nat) : statusFields.getLsbD b = (b < 3 || 8 ≤ b && b < 12) := by
  by_cases hb : b < 32
  · have hbits : ∀ b : Fin 32, statusFields.getLsbD b = (b.val < 3 || 8 ≤ b.val && b.val < 12) := by decide
    exact hbits ⟨b, hb⟩
  · rw [BitVec.getLsbD_of_ge _ _ (by omega)]
    simp only [show ¬ b < 3 by omega, show ¬ b < 12 by omega, decide_false, Bool.and_false, Bool.or_false]

theorem statusRead_getLsbD (st : Word) (b : Nat) :
    (statusRead st).getLsbD b = ((b < 3 || 8 ≤ b && b < 12) && st.getLsbD b) := by
  rw [statusRead, BitVec.getLsbD_and, statusFields_getLsbD, Bool.and_comm]

/-- Settles O43: the read is `regRead`, whose value for the registers of fewer bits is theirs, widened. -/
theorem registerReads : Obligations.RegisterReads := by
  intro s n rest hp
  refine ⟨regRead n s, step_readReg hp, ?key, ?rows, ?cols, ?chans, ?cmd, ?status, fun hn => regRead_missing hn s⟩
  case key | cmd =>
    rintro rfl
    rfl
  case rows | cols | chans =>
    rintro rfl
    exact BitVec.toNat_setWidth_of_le (by decide)
  case status =>
    rintro rfl
    exact statusRead_getLsbD s.status

end Sys2Proof.Machine

/-! # Proofs of the family `60_exceptions.md` -/

namespace Sys2Proof.Machine

/-- Settles O39: a word of the list decodes to a command, which the step executes with the same wrong count, so the step is the
fault entry. -/
theorem wrongChannelCountFaults : Obligations.WrongChannelCountFaults := by
  intro s w rest hp hw hchans
  obtain ⟨i, hi⟩ := mem_legalWords_iff.mp hw
  obtain ⟨hcommand, -⟩ := stepRunsTheDecodedCommand s w rest hp
  rw [hcommand i hi]
  exact exec_afterFault_of_not_three (s := { s with pending := rest, cmd := w }) hchans i

end Sys2Proof.Machine

/-! # Proofs of the family `70_reset_and_hazards.md` -/

namespace Sys2Proof.Machine

theorem step_reset {s : State} {rest : List HostAction} (hp : s.pending = .reset :: rest) :
    step s = .next (resetAction { s with pending := rest }) := by
  rw [step_action hp]
  rfl

/-- After `Reset` nothing is written in SRC, so every element holds its free value (R35; log 2). -/
@[simp] theorem srcRead_resetAction (s : State) (a : Nat) :
    srcRead (resetAction s) a = Config.freeSrc (s.resets + 1) a := by
  rw [srcRead, resetAction_src, resetAction_resets, Memory.read, Option.getD_none]

/-- After `Reset` nothing is written in DST, so every element holds its free value (R35; log 2). -/
@[simp] theorem dstRead_resetAction (s : State) (a : Nat) :
    dstRead (resetAction s) a = Config.freeDst (s.resets + 1) a := by
  rw [dstRead, resetAction_dst, resetAction_resets, Memory.read, Option.getD_none]

/-- Settles O48: the step is `resetAction` with the action taken off the list, and its laws give every field. -/
theorem resetActionFreesTheState : Obligations.ResetActionFreesTheState := fun _ _ hp =>
  ⟨_, step_reset hp, resetAction_status _, resetAction_cmd _, resetAction_key _, resetAction_rows _, resetAction_cols _,
    resetAction_chans _, resetAction_S _, resetAction_P _, fun a => ⟨srcRead_resetAction _ a, dstRead_resetAction _ a⟩,
    resetAction_resets _, resetAction_tables _, resetAction_pending _, resetAction_replies _, resetAction_outcomes _⟩

end Sys2Proof.Machine
